-- ==== Sys2Proof/Word.lean ====
section
/-! DEFINITION. The words of the CHIP-8 core: its bit-vector widths (00_scope.md R5, R7). All values are unsigned. -/

namespace Sys2Proof

/-- A 4-bit field of an instruction word (R9 "nibble"). -/
abbrev Nibble := BitVec 4

/-- An 8-bit value: a general register, a timer, a memory byte, the immediate kk. -/
abbrev Byte := BitVec 8

/-- The 12-bit address field nnn (R62). -/
abbrev Addr12 := BitVec 12

/-- A 16-bit value: an instruction word, I, PC, a stack entry. -/
abbrev Word := BitVec 16

/-- A register selector, the field x or y of an instruction word (R62, R64): 0 to 15 select V0 to VF. -/
abbrev RegIdx := BitVec 4

/-- VF, general register 15 (R7, R12). -/
abbrev VF : RegIdx := 0xF#4

/-- V0, general register 0 (R7). -/
abbrev V0 : RegIdx := 0x0#4

end Sys2Proof
end

