-- ==== Sys2Proof/Syntax.lean ====
section
/-! DEFINITION. The instruction set: one constructor per row of spec/opcode_table.json, in the table's order
(30_encoding.md R66). Operands have exactly the widths of their fields (R62), so every term is an instruction. -/

namespace Sys2Proof

inductive Instr where
  /-- 00E0 CLS. -/
  | cls
  /-- 00EE RET. -/
  | ret
  /-- 1nnn JP nnn. -/
  | jp (nnn : Addr12)
  /-- 2nnn CALL nnn. -/
  | call (nnn : Addr12)
  /-- 3xkk SE Vx, kk. -/
  | seKk (x : RegIdx) (kk : Byte)
  /-- 4xkk SNE Vx, kk. -/
  | sneKk (x : RegIdx) (kk : Byte)
  /-- 5xy0 SE Vx, Vy. -/
  | seVy (x y : RegIdx)
  /-- 6xkk LD Vx, kk. -/
  | ldKk (x : RegIdx) (kk : Byte)
  /-- 7xkk ADD Vx, kk. -/
  | addKk (x : RegIdx) (kk : Byte)
  /-- 8xy0 LD Vx, Vy. -/
  | ldVy (x y : RegIdx)
  /-- 8xy1 OR Vx, Vy. -/
  | orVy (x y : RegIdx)
  /-- 8xy2 AND Vx, Vy. -/
  | andVy (x y : RegIdx)
  /-- 8xy3 XOR Vx, Vy. -/
  | xorVy (x y : RegIdx)
  /-- 8xy4 ADD Vx, Vy. -/
  | addVy (x y : RegIdx)
  /-- 8xy5 SUB Vx, Vy. -/
  | sub (x y : RegIdx)
  /-- 8xy6 SHR Vx; y is decoded but not used (R128). -/
  | shr (x y : RegIdx)
  /-- 8xy7 SUBN Vx, Vy. -/
  | subn (x y : RegIdx)
  /-- 8xyE SHL Vx; y is decoded but not used (R130). -/
  | shl (x y : RegIdx)
  /-- 9xy0 SNE Vx, Vy. -/
  | sneVy (x y : RegIdx)
  /-- Annn LD I, nnn. -/
  | ldI (nnn : Addr12)
  /-- Bnnn JP V0, nnn. -/
  | jpV0 (nnn : Addr12)
  /-- Cxkk RND Vx, kk. -/
  | rnd (x : RegIdx) (kk : Byte)
  /-- Dxyn DRW Vx, Vy, n. -/
  | drw (x y : RegIdx) (n : Nibble)
  /-- Ex9E SKP Vx. -/
  | skp (x : RegIdx)
  /-- ExA1 SKNP Vx. -/
  | sknp (x : RegIdx)
  /-- Fx07 LD Vx, DT. -/
  | ldVxDt (x : RegIdx)
  /-- Fx0A LD Vx, K. -/
  | ldVxK (x : RegIdx)
  /-- Fx15 LD DT, Vx. -/
  | ldDtVx (x : RegIdx)
  /-- Fx18 LD ST, Vx. -/
  | ldStVx (x : RegIdx)
  /-- Fx1E ADD I, Vx. -/
  | addI (x : RegIdx)
  /-- Fx29 LD F, Vx. -/
  | ldF (x : RegIdx)
  /-- Fx33 LD B, Vx. -/
  | ldB (x : RegIdx)
  /-- Fx55 LD [I], Vx. -/
  | ldMem (x : RegIdx)
  /-- Fx65 LD Vx, [I]. -/
  | ldVxMem (x : RegIdx)
deriving DecidableEq, Repr

end Sys2Proof
end

