-- ==== Sys2Proof/WellFormed.lean ====
section
/-! DEFINITION. Well-formed instructions and the opcode map of 30_encoding.md R66 as data: which 16-bit words are
instructions, and which row each instruction belongs to. The decoder (Decode.lean) is written apart from this table. -/

namespace Sys2Proof

/-- The operand fields of an instruction word (R62). -/
inductive OpField where
  | x | y | n | kk | nnn
deriving DecidableEq, Repr

/-- The width of a field in bits (R62). -/
def OpField.width : OpField → Nat
  | .x | .y | .n => 4
  | .kk => 8
  | .nnn => 12

/-- The check on one operand: its number fits its field (R64). -/
def OpField.fits (f : OpField) (value : Nat) : Bool := value < 2 ^ f.width

/-- The operands of an instruction, each with the field it fills (R63). -/
def Instr.operands : Instr → List (OpField × Nat)
  | .cls | .ret => []
  | .jp nnn | .call nnn | .ldI nnn | .jpV0 nnn => [(.nnn, nnn.toNat)]
  | .seKk x kk | .sneKk x kk | .ldKk x kk | .addKk x kk | .rnd x kk => [(.x, x.toNat), (.kk, kk.toNat)]
  | .seVy x y | .sneVy x y | .ldVy x y | .orVy x y | .andVy x y | .xorVy x y | .addVy x y | .sub x y | .shr x y
  | .subn x y | .shl x y => [(.x, x.toNat), (.y, y.toNat)]
  | .drw x y n => [(.x, x.toNat), (.y, y.toNat), (.n, n.toNat)]
  | .skp x | .sknp x | .ldVxDt x | .ldVxK x | .ldDtVx x | .ldStVx x | .addI x | .ldF x | .ldB x | .ldMem x
  | .ldVxMem x => [(.x, x.toNat)]

/-- A list of raw operands is well formed when every one fits its field. -/
def operandsFit (ops : List (OpField × Nat)) : Bool := ops.all fun o => o.1.fits o.2

/-- An instruction is well formed when its operands fit their fields (R62, R64: all values of a field are valid).
The operand types carry this, so it holds of every term (`wellFormed_all`); the check itself refuses raw operands
that do not fit. -/
def WellFormed (i : Instr) : Bool := operandsFit i.operands

/-- A row of the opcode map (R66): a word belongs to the row when `(w & mask) == pattern`. -/
structure OpcodeRow where
  mnemonic : String
  mask : Word
  pattern : Word
deriving DecidableEq, Repr

/-- "A word matches a row when `(w & mask) == match`" (R66). -/
def OpcodeRow.covers (row : OpcodeRow) (w : Word) : Bool := w &&& row.mask == row.pattern

/-- Families 0 to 7 of the opcode map (R66). -/
def opcodeRowsLow : List OpcodeRow :=
  [⟨"CLS", 0xFFFF, 0x00E0⟩, ⟨"RET", 0xFFFF, 0x00EE⟩, ⟨"JP", 0xF000, 0x1000⟩, ⟨"CALL", 0xF000, 0x2000⟩,
   ⟨"SE_KK", 0xF000, 0x3000⟩, ⟨"SNE_KK", 0xF000, 0x4000⟩, ⟨"SE_VY", 0xF00F, 0x5000⟩, ⟨"LD_KK", 0xF000, 0x6000⟩,
   ⟨"ADD_KK", 0xF000, 0x7000⟩]

/-- Family 8 of the opcode map (R66, R67). -/
def opcodeRowsAlu : List OpcodeRow :=
  [⟨"LD_VY", 0xF00F, 0x8000⟩, ⟨"OR", 0xF00F, 0x8001⟩, ⟨"AND", 0xF00F, 0x8002⟩, ⟨"XOR", 0xF00F, 0x8003⟩,
   ⟨"ADD_VY", 0xF00F, 0x8004⟩, ⟨"SUB", 0xF00F, 0x8005⟩, ⟨"SHR", 0xF00F, 0x8006⟩, ⟨"SUBN", 0xF00F, 0x8007⟩,
   ⟨"SHL", 0xF00F, 0x800E⟩]

/-- Families 9 to E of the opcode map (R66). -/
def opcodeRowsHigh : List OpcodeRow :=
  [⟨"SNE_VY", 0xF00F, 0x9000⟩, ⟨"LD_I", 0xF000, 0xA000⟩, ⟨"JP_V0", 0xF000, 0xB000⟩, ⟨"RND", 0xF000, 0xC000⟩,
   ⟨"DRW", 0xF000, 0xD000⟩, ⟨"SKP", 0xF0FF, 0xE09E⟩, ⟨"SKNP", 0xF0FF, 0xE0A1⟩]

/-- Family F of the opcode map (R66). -/
def opcodeRowsF : List OpcodeRow :=
  [⟨"LD_VX_DT", 0xF0FF, 0xF007⟩, ⟨"LD_VX_K", 0xF0FF, 0xF00A⟩, ⟨"LD_DT_VX", 0xF0FF, 0xF015⟩,
   ⟨"LD_ST_VX", 0xF0FF, 0xF018⟩, ⟨"ADD_I_VX", 0xF0FF, 0xF01E⟩, ⟨"LD_F_VX", 0xF0FF, 0xF029⟩,
   ⟨"LD_B_VX", 0xF0FF, 0xF033⟩, ⟨"LD_MEM_VX", 0xF0FF, 0xF055⟩, ⟨"LD_VX_MEM", 0xF0FF, 0xF065⟩]

/-- The complete opcode map: 34 rows (R66). -/
def opcodeTable : List OpcodeRow := opcodeRowsLow ++ opcodeRowsAlu ++ opcodeRowsHigh ++ opcodeRowsF

/-- The row of the opcode map that an instruction belongs to (R66). -/
def Instr.row : Instr → OpcodeRow
  | .cls => ⟨"CLS", 0xFFFF, 0x00E0⟩
  | .ret => ⟨"RET", 0xFFFF, 0x00EE⟩
  | .jp _ => ⟨"JP", 0xF000, 0x1000⟩
  | .call _ => ⟨"CALL", 0xF000, 0x2000⟩
  | .seKk _ _ => ⟨"SE_KK", 0xF000, 0x3000⟩
  | .sneKk _ _ => ⟨"SNE_KK", 0xF000, 0x4000⟩
  | .seVy _ _ => ⟨"SE_VY", 0xF00F, 0x5000⟩
  | .ldKk _ _ => ⟨"LD_KK", 0xF000, 0x6000⟩
  | .addKk _ _ => ⟨"ADD_KK", 0xF000, 0x7000⟩
  | .ldVy _ _ => ⟨"LD_VY", 0xF00F, 0x8000⟩
  | .orVy _ _ => ⟨"OR", 0xF00F, 0x8001⟩
  | .andVy _ _ => ⟨"AND", 0xF00F, 0x8002⟩
  | .xorVy _ _ => ⟨"XOR", 0xF00F, 0x8003⟩
  | .addVy _ _ => ⟨"ADD_VY", 0xF00F, 0x8004⟩
  | .sub _ _ => ⟨"SUB", 0xF00F, 0x8005⟩
  | .shr _ _ => ⟨"SHR", 0xF00F, 0x8006⟩
  | .subn _ _ => ⟨"SUBN", 0xF00F, 0x8007⟩
  | .shl _ _ => ⟨"SHL", 0xF00F, 0x800E⟩
  | .sneVy _ _ => ⟨"SNE_VY", 0xF00F, 0x9000⟩
  | .ldI _ => ⟨"LD_I", 0xF000, 0xA000⟩
  | .jpV0 _ => ⟨"JP_V0", 0xF000, 0xB000⟩
  | .rnd _ _ => ⟨"RND", 0xF000, 0xC000⟩
  | .drw _ _ _ => ⟨"DRW", 0xF000, 0xD000⟩
  | .skp _ => ⟨"SKP", 0xF0FF, 0xE09E⟩
  | .sknp _ => ⟨"SKNP", 0xF0FF, 0xE0A1⟩
  | .ldVxDt _ => ⟨"LD_VX_DT", 0xF0FF, 0xF007⟩
  | .ldVxK _ => ⟨"LD_VX_K", 0xF0FF, 0xF00A⟩
  | .ldDtVx _ => ⟨"LD_DT_VX", 0xF0FF, 0xF015⟩
  | .ldStVx _ => ⟨"LD_ST_VX", 0xF0FF, 0xF018⟩
  | .addI _ => ⟨"ADD_I_VX", 0xF0FF, 0xF01E⟩
  | .ldF _ => ⟨"LD_F_VX", 0xF0FF, 0xF029⟩
  | .ldB _ => ⟨"LD_B_VX", 0xF0FF, 0xF033⟩
  | .ldMem _ => ⟨"LD_MEM_VX", 0xF0FF, 0xF055⟩
  | .ldVxMem _ => ⟨"LD_VX_MEM", 0xF0FF, 0xF065⟩

end Sys2Proof
end

