-- ==== Sys2Proof/Decode.lean ====
section
/-! DEFINITION. Decoding and encoding (30_encoding.md R60 to R69). `decodeWord` is a function of the 16-bit word alone;
`decode` reads bytes, high byte first (20_memory.md R43), and rejects by name. -/

namespace Sys2Proof

/-! ### Words put together (R61, R63, R43) -/

/-- Format NNN: op, nnn (R63). -/
def wordNnn (op : Nibble) (nnn : Addr12) : Word := op ++ nnn

/-- Formats XKK and X: op, x, low byte (R63). -/
def wordXkk (op : Nibble) (x : RegIdx) (kk : Byte) : Word := op ++ x ++ kk

/-- Formats XY and XYN: op, x, y, low nibble (R63). -/
def wordXyn (op : Nibble) (x y : RegIdx) (n : Nibble) : Word := op ++ x ++ y ++ n

/-- Two bytes, the one at the lower address high (R43). -/
def wordOfBytes (hi lo : Byte) : Word := hi ++ lo

/-! ### The fields of an instruction word (R61, R62) -/

/-- op = w[15:12], the family. -/
def opOf (w : Word) : Nibble := w.extractLsb' 12 4

/-- x = w[11:8]. -/
def xOf (w : Word) : RegIdx := w.extractLsb' 8 4

/-- y = w[7:4]. -/
def yOf (w : Word) : RegIdx := w.extractLsb' 4 4

/-- n = w[3:0]. -/
def nOf (w : Word) : Nibble := w.extractLsb' 0 4

/-- kk = w[7:0]. -/
def kkOf (w : Word) : Byte := w.extractLsb' 0 8

/-- nnn = w[11:0]. -/
def nnnOf (w : Word) : Addr12 := w.extractLsb' 0 12

/-- Family 0x0 is selected by the whole word (R65). -/
def decodeFamily0 (w : Word) : Option Instr :=
  if w = 0x00E0#16 then some .cls
  else if w = 0x00EE#16 then some .ret
  else none

/-- Family 0x8 is selected by the low nibble (R65, R67). -/
def decodeFamily8 (x y : RegIdx) (n : Nibble) : Option Instr :=
  if n = 0x0#4 then some (.ldVy x y)
  else if n = 0x1#4 then some (.orVy x y)
  else if n = 0x2#4 then some (.andVy x y)
  else if n = 0x3#4 then some (.xorVy x y)
  else if n = 0x4#4 then some (.addVy x y)
  else if n = 0x5#4 then some (.sub x y)
  else if n = 0x6#4 then some (.shr x y)
  else if n = 0x7#4 then some (.subn x y)
  else if n = 0xE#4 then some (.shl x y)
  else none

/-- Family 0xE is selected by the low byte (R65). -/
def decodeFamilyE (x : RegIdx) (kk : Byte) : Option Instr :=
  if kk = 0x9E#8 then some (.skp x)
  else if kk = 0xA1#8 then some (.sknp x)
  else none

/-- Family 0xF is selected by the low byte (R65). -/
def decodeFamilyF (x : RegIdx) (kk : Byte) : Option Instr :=
  if kk = 0x07#8 then some (.ldVxDt x)
  else if kk = 0x0A#8 then some (.ldVxK x)
  else if kk = 0x15#8 then some (.ldDtVx x)
  else if kk = 0x18#8 then some (.ldStVx x)
  else if kk = 0x1E#8 then some (.addI x)
  else if kk = 0x29#8 then some (.ldF x)
  else if kk = 0x33#8 then some (.ldB x)
  else if kk = 0x55#8 then some (.ldMem x)
  else if kk = 0x65#8 then some (.ldVxMem x)
  else none

/-- The decoder (R65): first the family, then the family's secondary selector. `none` is an invalid word (R68). The
sixteen families are all there are, so the last `none` is never reached. -/
def decodeWord (w : Word) : Option Instr :=
  if opOf w = 0x0#4 then decodeFamily0 w
  else if opOf w = 0x1#4 then some (.jp (nnnOf w))
  else if opOf w = 0x2#4 then some (.call (nnnOf w))
  else if opOf w = 0x3#4 then some (.seKk (xOf w) (kkOf w))
  else if opOf w = 0x4#4 then some (.sneKk (xOf w) (kkOf w))
  else if opOf w = 0x5#4 then if nOf w = 0x0#4 then some (.seVy (xOf w) (yOf w)) else none
  else if opOf w = 0x6#4 then some (.ldKk (xOf w) (kkOf w))
  else if opOf w = 0x7#4 then some (.addKk (xOf w) (kkOf w))
  else if opOf w = 0x8#4 then decodeFamily8 (xOf w) (yOf w) (nOf w)
  else if opOf w = 0x9#4 then if nOf w = 0x0#4 then some (.sneVy (xOf w) (yOf w)) else none
  else if opOf w = 0xA#4 then some (.ldI (nnnOf w))
  else if opOf w = 0xB#4 then some (.jpV0 (nnnOf w))
  else if opOf w = 0xC#4 then some (.rnd (xOf w) (kkOf w))
  else if opOf w = 0xD#4 then some (.drw (xOf w) (yOf w) (nOf w))
  else if opOf w = 0xE#4 then decodeFamilyE (xOf w) (kkOf w)
  else if opOf w = 0xF#4 then decodeFamilyF (xOf w) (kkOf w)
  else none

/-- Why bytes do not decode. -/
inductive DecodeError where
  /-- Fewer than two bytes: no whole instruction word (R60). -/
  | truncated
  /-- The word matches no row (R68). -/
  | invalidOpcode (w : Word)
deriving DecidableEq, Repr

/-- An instruction from the front of a byte sequence, with the bytes that follow it; big-endian (R43, R60). -/
def decode : List Byte → Except DecodeError (Instr × List Byte)
  | hi :: lo :: rest =>
    match decodeWord (wordOfBytes hi lo) with
    | some i => .ok (i, rest)
    | none => .error (.invalidOpcode (wordOfBytes hi lo))
  | _ => .error .truncated

/-- The word of an instruction (R63, R66). -/
def encode : Instr → Word
  | .cls => 0x00E0#16
  | .ret => 0x00EE#16
  | .jp nnn => wordNnn 0x1#4 nnn
  | .call nnn => wordNnn 0x2#4 nnn
  | .seKk x kk => wordXkk 0x3#4 x kk
  | .sneKk x kk => wordXkk 0x4#4 x kk
  | .seVy x y => wordXyn 0x5#4 x y 0x0#4
  | .ldKk x kk => wordXkk 0x6#4 x kk
  | .addKk x kk => wordXkk 0x7#4 x kk
  | .ldVy x y => wordXyn 0x8#4 x y 0x0#4
  | .orVy x y => wordXyn 0x8#4 x y 0x1#4
  | .andVy x y => wordXyn 0x8#4 x y 0x2#4
  | .xorVy x y => wordXyn 0x8#4 x y 0x3#4
  | .addVy x y => wordXyn 0x8#4 x y 0x4#4
  | .sub x y => wordXyn 0x8#4 x y 0x5#4
  | .shr x y => wordXyn 0x8#4 x y 0x6#4
  | .subn x y => wordXyn 0x8#4 x y 0x7#4
  | .shl x y => wordXyn 0x8#4 x y 0xE#4
  | .sneVy x y => wordXyn 0x9#4 x y 0x0#4
  | .ldI nnn => wordNnn 0xA#4 nnn
  | .jpV0 nnn => wordNnn 0xB#4 nnn
  | .rnd x kk => wordXkk 0xC#4 x kk
  | .drw x y n => wordXyn 0xD#4 x y n
  | .skp x => wordXkk 0xE#4 x 0x9E#8
  | .sknp x => wordXkk 0xE#4 x 0xA1#8
  | .ldVxDt x => wordXkk 0xF#4 x 0x07#8
  | .ldVxK x => wordXkk 0xF#4 x 0x0A#8
  | .ldDtVx x => wordXkk 0xF#4 x 0x15#8
  | .ldStVx x => wordXkk 0xF#4 x 0x18#8
  | .addI x => wordXkk 0xF#4 x 0x1E#8
  | .ldF x => wordXkk 0xF#4 x 0x29#8
  | .ldB x => wordXkk 0xF#4 x 0x33#8
  | .ldMem x => wordXkk 0xF#4 x 0x55#8
  | .ldVxMem x => wordXkk 0xF#4 x 0x65#8

/-- The high byte of a word, the one at the lower address (R43). -/
def hiByte (w : Word) : Byte := w.extractLsb' 8 8

/-- The low byte of a word, the one at the higher address (R43). -/
def loByte (w : Word) : Byte := w.extractLsb' 0 8

/-- The two bytes of an instruction as they lie in memory (R43). -/
def encodeBytes (i : Instr) : List Byte := [hiByte (encode i), loByte (encode i)]

/-- The instruction the decoder reads from a table word `w`: its two bytes laid out as memory holds them. Every
instruction is one 16-bit word (R60), so `nbits` carries nothing. -/
def decodeTableWord (_nbits w : Nat) : Option Instr :=
  match decode [hiByte (BitVec.ofNat 16 w), loByte (BitVec.ofNat 16 w)] with
  | .ok (i, _) => some i
  | .error _ => none

end Sys2Proof
end

