-- ==== Sys2Proof/Config.lean ====
section
/-! DEFINITION. What is fixed for the machine (00_scope.md R5) and its one free value, the random byte (40_step_cycle.md R88). -/

namespace Sys2Proof.Config

/-- MEM_SIZE: memory locations 0 to 4095 (R5, R40). -/
abbrev memSize : Nat := 4096

/-- PROG_BASE: the load and entry address (R5, R19). -/
abbrev progBase : Nat := 0x200

/-- PROG_MAX: the largest program, 4096 − 0x200 bytes (R5, R54). -/
abbrev progMax : Nat := 3584

/-- STACK_DEPTH: the entries of the call stack (R5, R23). -/
abbrev stackDepth : Nat := 16

/-- NREG: the general registers (R5, R10). -/
abbrev numRegs : Nat := 16

/-- NKEYS: the keys of the keypad (R5, R30). -/
abbrev numKeys : Nat := 16

/-- FB_W: the columns of the framebuffer (R5, R33). -/
abbrev fbCols : Nat := 64

/-- FB_H: the rows of the framebuffer (R5, R33). -/
abbrev fbRows : Nat := 32

/-- GLYPH_SIZE: bytes of one glyph (R5, R22). -/
abbrev glyphSize : Nat := 5

/-- The free input `rnd` of R88: the byte that the k-th execution of Cxkk draws. It has no body: "no law constrains
it", so a claim about it holds for every choice. Log entry 2. DESIGN CHOICE, safe. -/
opaque rnd : Nat → Byte

end Sys2Proof.Config
end

