-- ==== Sys2Proof/Machine/Font.lean ====
section
/-! DEFINITION. The built-in font, the named parameter `FONT` of the spec at its default (10_state.md R22, D15). -/

namespace Sys2Proof.Machine

/-- Glyphs 0 to 3 (R22). -/
def font0to3 : List Byte :=
  [0xF0, 0x90, 0x90, 0x90, 0xF0,  0x20, 0x60, 0x20, 0x20, 0x70,
   0xF0, 0x10, 0xF0, 0x80, 0xF0,  0xF0, 0x10, 0xF0, 0x10, 0xF0]

/-- Glyphs 4 to 7 (R22). -/
def font4to7 : List Byte :=
  [0x90, 0x90, 0xF0, 0x10, 0x10,  0xF0, 0x80, 0xF0, 0x10, 0xF0,
   0xF0, 0x80, 0xF0, 0x90, 0xF0,  0xF0, 0x10, 0x20, 0x40, 0x40]

/-- Glyphs 8 to B (R22). -/
def font8toB : List Byte :=
  [0xF0, 0x90, 0xF0, 0x90, 0xF0,  0xF0, 0x90, 0xF0, 0x10, 0xF0,
   0xF0, 0x90, 0xF0, 0x90, 0x90,  0xE0, 0x90, 0xE0, 0x90, 0xE0]

/-- Glyphs C to F (R22). -/
def fontCtoF : List Byte :=
  [0xF0, 0x80, 0x80, 0x80, 0xF0,  0xE0, 0x90, 0x90, 0x90, 0xE0,
   0xF0, 0x80, 0xF0, 0x80, 0xF0,  0xF0, 0x80, 0xF0, 0x80, 0x80]

/-- FONT[0..79]: 16 glyphs of 5 bytes, installed at 0x000. PRESUMED (log entry 1): the source does not list the bytes,
R22 gives these as the default, from general knowledge. Unsafe for claims about glyph shapes. -/
def font : List Byte := font0to3 ++ font4to7 ++ font8toB ++ fontCtoF

/-- The byte at an address right after reset (R32, R41, R201): FONT at 0x000 to 0x04F, 0x00 above. An address that
`State.mem` does not list reads as this. -/
def resetByte (a : Nat) : Byte := font.getD a 0

end Sys2Proof.Machine
end

