-- ==== Sys2Proof/Machine/State.lean ====
section
/-! DEFINITION. The Machine State of 10_state.md R34 as plain data, the faults of 60_exceptions.md R170, and the state
after reset (70_reset_and_hazards.md R201). -/

namespace Sys2Proof.Machine

/-- Memory (10_state.md R32, 20_memory.md R40): the bytes that differ from what the address holds after reset
(`resetByte`), by strictly rising address. The form is `Memory.wf` in Ops.lean. -/
abbrev Memory := List Host.Cell

/-- The framebuffer: pixel (r, c) is bit r·64 + c (10_state.md R33). DESIGN CHOICE of the spec (log entry 7), safe. -/
abbrev Framebuffer := BitVec 2048

/-- Every piece of architectural state (10_state.md R34), and the model's own counter of random draws. -/
structure State where
  /-- V0 to VF (R10). -/
  v : Vector Byte 16
  /-- The index register I (R21). -/
  i : Word
  /-- The program counter PC (R15). -/
  pc : Word
  /-- The stack pointer SP: the number of return addresses held, 0 to 16 (R23, R25). -/
  sp : Fin 17
  /-- STACK[0..15] (R23). -/
  stack : Vector Word 16
  /-- The delay timer DT (R27). -/
  dt : Byte
  /-- The sound timer ST (R27, R29). -/
  st : Byte
  /-- The keypad latch KEY[0..15]; true is down (R30). -/
  key : Vector Bool 16
  /-- The framebuffer FB (R33). -/
  fb : Framebuffer
  /-- Memory MEM[0..4095] (R32). -/
  mem : Memory
  /-- WAIT: false is Ready, true is AwaitingKey (R31). -/
  wait : Bool
  /-- The MODEL'S OWN field: how many random bytes have been drawn; `Config.rnd draws` is the next (R88, log entry 3). -/
  draws : Nat
deriving DecidableEq, Repr

/-- The fault causes (60_exceptions.md R170). Every one is the spec's own: the step changes nothing and the host should
halt the session (R171, R179). All are safe: the machine stops where the spec says it stops. -/
inductive Fault where
  /-- Code 1. Raised by decode: the fetched word `w` matches no row of the opcode map (R68, R173). Safe. -/
  | invalidOpcode (w : Word)
  /-- Code 2. Raised by Fx29 when Vx > 15; carries Vx (R142, R174). Safe. -/
  | invalidGlyphIndex (vx : Byte)
  /-- Code 3. Raised by 2nnn when SP = 16 (R102, R175). Safe. -/
  | stackOverflow
  /-- Code 4. Raised by 00EE when SP = 0 (R100, R176). Safe. -/
  | stackUnderflow
  /-- Code 5. Raised by the fetch and by Dxyn, Fx33, Fx55, Fx65 when an address exceeds 4095; carries the lowest
  out-of-range address (R44, R47, R177). Safe. -/
  | memoryOutOfRange (addr : Word)
  /-- Code 6. Raised by Ex9E and ExA1 when Vx > 15; carries Vx (R160, R161). Safe. -/
  | invalidKeyIndex (vx : Byte)
deriving DecidableEq, Repr

/-- Why the model gives an instruction no meaning. -/
inductive Refusal where
  /-- Raised by an arm of exec whose instruction has no meaning yet; no arm does, every instruction is modelled. Safe. -/
  | notModelled (mnemonic : String)
deriving DecidableEq, Repr

/-- What a step answers (40_step_cycle.md R85, R89): `next` is `ok`, `fault` is `fault(cause, info)`. -/
abbrev StepResult := Host.Outcome State Fault Refusal

/-- The state right after `reset()` (R81, R200, R201): all zero, the font in place (an empty list reads as
`resetByte`), PC at 0x200. `draws` is the model's own (log entry 3). -/
def State.reset : State where
  v := Vector.replicate 16 0
  i := 0
  pc := 0x200
  sp := 0
  stack := Vector.replicate 16 0
  dt := 0
  st := 0
  key := Vector.replicate 16 false
  fb := 0
  mem := []
  wait := false
  draws := 0

end Sys2Proof.Machine
end

