-- ==== Sys2Proof/Machine/Ops.lean ====
section
/-! DEFINITION. The named operations over memory, registers, stack, keypad and framebuffer, the fetch, and the ways an
instruction ends (20_memory.md, 10_state.md, 40_step_cycle.md, 60_exceptions.md). -/

namespace Sys2Proof.Machine

/-! ### Memory (20_memory.md) -/

/-- The byte at an address: the listed byte, or what the address holds after reset (R40, R45, R51). -/
def Memory.read : Memory → Nat → Byte
  | [], a => resetByte a
  | (b, w) :: rest, a => if b = a then w else Memory.read rest a

/-- The list without an address. -/
def Memory.erase : Memory → Nat → Memory
  | [], _ => []
  | (b, w) :: rest, a => if b = a then Memory.erase rest a else (b, w) :: Memory.erase rest a

/-- A cell put before the first higher address. -/
def Memory.insert : Memory → Nat → Byte → Memory
  | [], a, v => [(a, v)]
  | (b, w) :: rest, a, v => if a < b then (a, v) :: (b, w) :: rest else (b, w) :: Memory.insert rest a v

/-- Store one byte (R46), keeping the canonical form: a byte equal to the reset byte is not listed. -/
def Memory.write (m : Memory) (a : Nat) (v : Byte) : Memory :=
  if v = resetByte a then Memory.erase m a else Memory.insert (Memory.erase m a) a v

/-- The canonical form: strictly rising addresses inside memory, no entry equal to the reset byte. -/
abbrev Memory.wf (m : Memory) : Prop :=
  m.Pairwise (fun c d => c.1 < d.1) ∧ ∀ c ∈ m, c.1 < Config.memSize ∧ c.2 ≠ resetByte c.1

/-- `len` bytes at ascending addresses from `base` (R43, R49, R146). -/
def Memory.readBytes (m : Memory) (base len : Nat) : List Byte :=
  (List.range len).map fun k => Memory.read m (base + k)

/-- Store bytes at ascending addresses from `base` (R43, R49, R146). -/
def Memory.writeBytes (m : Memory) (base : Nat) : List Byte → Memory
  | [] => m
  | b :: bs => Memory.writeBytes (Memory.write m base b) (base + 1) bs

/-- The all-or-nothing bounds check of R47: the range of `len` bytes from `base` is empty or ends at 4095 or below.
The addition is in the integers. -/
def rangeOk (base len : Nat) : Bool := len == 0 || decide (base + len ≤ Config.memSize)

/-- The `info` of MemoryOutOfRange: max(a, 4096), the lowest out-of-range address (R44, R47). -/
def firstOutOfRange (a : Word) : Word := if a.toNat < Config.memSize then 0x1000#16 else a

/-! ### Updates of one piece of state -/

/-- `V[r] <- b` (R10, R11). -/
def setV (r : RegIdx) (b : Byte) (s : State) : State := { s with v := s.v.set r.toNat b r.isLt }

/-- `I <- w` (R21). -/
def setI (w : Word) (s : State) : State := { s with i := w }

/-- `DT <- b` (R27). -/
def setDt (b : Byte) (s : State) : State := { s with dt := b }

/-- `ST <- b` (R27). -/
def setSt (b : Byte) (s : State) : State := { s with st := b }

/-- The keypad latch replaced at once (R30, R83). -/
def setKey (k : Vector Bool 16) (s : State) : State := { s with key := k }

/-- The framebuffer replaced (R33). -/
def setFb (fb : Framebuffer) (s : State) : State := { s with fb := fb }

/-- Memory replaced (R40). -/
def setMem (m : Memory) (s : State) : State := { s with mem := m }

/-- The call stack replaced: SP and STACK (R23). -/
def setStack (sp : Fin 17) (stack : Vector Word 16) (s : State) : State := { s with sp := sp, stack := stack }

/-- One more random byte drawn (the model's own counter, log entry 3). -/
def countDraw (s : State) : State := { s with draws := s.draws + 1 }

/-- The commit of a step (R85): PC, and WAIT as R87 gives it. -/
def commit (pc : Word) (waiting : Bool) (s : State) : State := { s with pc := pc, wait := waiting }

/-! ### Registers -/

/-- `V[r]` (R7, R10). -/
def getV (s : State) (r : RegIdx) : Byte := s.v[r.toNat]'r.isLt

/-- Registers from number `r` upward loaded from a list of bytes, one each (R145). -/
def setVFrom (r : Nat) : List Byte → State → State
  | [], s => s
  | b :: bs, s => setVFrom (r + 1) bs (setV (BitVec.ofNat 4 r) b s)

/-- V0 to Vx inclusive, V0 first (R144). -/
def blockV (s : State) (x : RegIdx) : List Byte :=
  (List.range (x.toNat + 1)).map fun k => getV s (BitVec.ofNat 4 k)

/-! ### Call stack (10_state.md R23 to R26) -/

/-- Push: `STACK[SP] <- w`, then `SP <- SP + 1`; `none` when SP = 16 (R24, R25). -/
def push (w : Word) (s : State) : Option State :=
  if h : s.sp.val < 16 then some (setStack ⟨s.sp.val + 1, by omega⟩ (s.stack.set s.sp.val w) s) else none

/-- Pop: `SP <- SP - 1`, then read `STACK[SP]`, which is not cleared; `none` when SP = 0 (R24, R25). -/
def pop (s : State) : Option (Word × State) :=
  if h : 0 < s.sp.val then
    some (s.stack[s.sp.val - 1], setStack ⟨s.sp.val - 1, by omega⟩ s.stack s)
  else none

/-! ### Keypad (10_state.md R30) -/

/-- Key `k` is down; there is no key above 15. -/
def keyDown (s : State) (k : Nat) : Bool := s.key[k]?.getD false

/-- The least index of a key that is down, `none` when every key is up (R87, R162). -/
def lowestKey (s : State) : Option Nat := (List.range Config.numKeys).find? (keyDown s)

/-! ### Framebuffer (10_state.md R33) -/

/-- `FB[row][col]`. -/
def pixel (fb : Framebuffer) (row col : Nat) : Bool := fb.getLsbD (row * Config.fbCols + col)

/-- `FB[row][col] <- FB[row][col] ^ 1`. -/
def flipPixel (fb : Framebuffer) (row col : Nat) : Framebuffer :=
  fb ^^^ BitVec.twoPow 2048 (row * Config.fbCols + col)

/-! ### How an instruction ends -/

/-- `raise f`: the step ends with the fault and nothing is written (R7, R171, R179). The one way a fault is raised. -/
def raise (f : Fault) : StepResult := .fault f

/-- A completed instruction: PC written, WAIT cleared (R85 commit, R86, R87). -/
def retire (pc : Word) (s : State) : StepResult := .next (commit pc false s)

/-- The normal advance `PC <- (PC + 2) mod 2^16` (R86). -/
def advance (s : State) : StepResult := retire (s.pc + 2) s

/-- A skip: one write of PC + 4 or PC + 2 (R86, 42_skip.md); the skipped word is not looked at. -/
def skipIf (cond : Bool) (s : State) : StepResult := retire (if cond then s.pc + 4 else s.pc + 2) s

/-- Fx0A with no key down: WAIT is set, PC and everything else keep their values (R87, R162). -/
def keepWaiting (s : State) : StepResult := .next (commit s.pc true s)

/-- Run `k` if the `len` bytes from I are inside memory, else raise MemoryOutOfRange (R47). -/
def withRange (len : Nat) (s : State) (k : StepResult) : StepResult :=
  if rangeOk s.i.toNat len then k else raise (.memoryOutOfRange (firstOutOfRange s.i))

/-! ### Fetch and decode (20_memory.md R44, 40_step_cycle.md R85) -/

/-- The big-endian word at PC; MemoryOutOfRange above 4094 (R43, R44, R48). -/
def fetch (s : State) : Except Fault Word :=
  if s.pc.toNat ≤ 4094 then
    .ok (wordOfBytes (Memory.read s.mem s.pc.toNat) (Memory.read s.mem (s.pc.toNat + 1)))
  else .error (.memoryOutOfRange (firstOutOfRange s.pc))

/-- The instruction at PC; InvalidOpcode for a word that matches no row (R68, R85). -/
def fetchInstr (s : State) : Except Fault Instr :=
  match fetch s with
  | .error f => .error f
  | .ok w =>
    match decodeWord w with
    | some i => .ok i
    | none => .error (.invalidOpcode w)

/-- The instruction word `w` stored where the next fetch reads it, high byte first (R43); nothing where no fetch can
read. -/
def placeWord (w : Word) (s : State) : State :=
  if s.pc.toNat ≤ 4094 then setMem (Memory.writeBytes s.mem s.pc.toNat [hiByte w, loByte w]) s else s

/-! ### What a fault reports (60_exceptions.md R170) -/

/-- The cause code of a fault, 1 to 6 (R170). -/
def faultCode : Fault → Nat
  | .invalidOpcode _ => 1
  | .invalidGlyphIndex _ => 2
  | .stackOverflow => 3
  | .stackUnderflow => 4
  | .memoryOutOfRange _ => 5
  | .invalidKeyIndex _ => 6

/-- The 16-bit `info` of a fault (R170). -/
def faultInfo : Fault → Word
  | .invalidOpcode w => w
  | .invalidGlyphIndex vx => vx.setWidth 16
  | .stackOverflow => 0
  | .stackUnderflow => 0
  | .memoryOutOfRange a => a
  | .invalidKeyIndex vx => vx.setWidth 16

end Sys2Proof.Machine
end

