-- ==== Sys2Proof/Machine/Flags.lean ====
section
/-! DEFINITION. The flag computations. VF is an ordinary register that six instructions overwrite with 0 or 1
(10_state.md R12, R13, R20; 43_load_alu.md R126 to R130, R133). -/

namespace Sys2Proof.Machine

/-- A flag as the byte VF receives: exactly 0 or 1 (R12). -/
def flagByte (f : Bool) : Byte := if f then 1 else 0

/-- `VF <- f`. -/
def setFlag (f : Bool) (s : State) : State := setV VF (flagByte f) s

/-- Carry of 8xy4: the unsigned sum exceeds 255 (R126). -/
def carryOf (a b : Byte) : Bool := decide (a.toNat + b.toNat > 255)

/-- No-borrow of 8xy5 and 8xy7, strict: `a > b`, 0 on equality (R127, R129; log entry 5). -/
def exceeds (a b : Byte) : Bool := decide (a.toNat > b.toNat)

/-- The bit that 8xy6 shifts out (R128). -/
def lowBit (a : Byte) : Bool := a.getLsbD 0

/-- The bit that 8xyE shifts out (R130). -/
def highBit (a : Byte) : Bool := a.getLsbD 7

/-- The end of every flag-writing ALU instruction: the result to Vx first, the flag to VF last, then the normal advance
(R13, R133). -/
def writeWithFlag (x : RegIdx) (result : Byte) (flag : Bool) (s : State) : StepResult :=
  advance (setFlag flag (setV x result s))

end Sys2Proof.Machine
end

