-- ==== Sys2Proof/Machine/Operands.lean ====
section
/-! DEFINITION. The operand forms: immediates, the glyph address, decimal digits, sprite pixels (30_encoding.md R64,
44_index_memory.md R142 and R143, 45_display.md R151 to R154). -/

namespace Sys2Proof.Machine

/-- nnn as an address, zero-extended to 16 bits (R64). -/
def addrOf (nnn : Addr12) : Word := nnn.setWidth 16

/-- A byte zero-extended to 16 bits (R7 `zext_16`). -/
def wordOf (b : Byte) : Word := b.setWidth 16

/-- The index carried by a whole byte, if it is 0 to 15; the byte is not masked (R142, R160, R161). -/
def indexOf (b : Byte) : Option Nat := if b.toNat ≤ 15 then some b.toNat else none

/-- The address of a glyph: 5 times its number, the font base being 0x000 (R22, R142). -/
def glyphAddr (d : Nat) : Word := BitVec.ofNat 16 (d * Config.glyphSize)

/-- The decimal digits of a byte: hundreds, tens, ones, as numbers (R143). -/
def bcdDigits (b : Byte) : List Byte :=
  [BitVec.ofNat 8 (b.toNat / 100), BitVec.ofNat 8 (b.toNat / 10 % 10), BitVec.ofNat 8 (b.toNat % 10)]

/-- The pixels that the 1 bits of one sprite byte fall on, leftmost first: bit 7 − b at column (vx + b) mod 64
(R151, R153, R154). -/
def rowPixels (vx row : Nat) (byte : Byte) : List (Nat × Nat) :=
  ((List.range 8).filter fun b => byte.getLsbD (7 - b)).map fun b => (row, (vx + b) % Config.fbCols)

/-- The pixels of a sprite whose next row is number `r`: row r at (vy + r) mod 32, top first (R151, R153, R154). -/
def spritePixels (vx vy r : Nat) : List Byte → List (Nat × Nat)
  | [] => []
  | byte :: rest => rowPixels vx ((vy + r) % Config.fbRows) byte ++ spritePixels vx vy (r + 1) rest

/-- One 1 bit of a sprite: note a collision if its pixel is set, then toggle the pixel (R151). -/
def drawPixel (acc : Framebuffer × Bool) (p : Nat × Nat) : Framebuffer × Bool :=
  (flipPixel acc.1 p.1 p.2, acc.2 || pixel acc.1 p.1 p.2)

/-- A whole sprite drawn at column `vx`, row `vy`: the framebuffer after, and the collision bit (R151, R155). -/
def drawSprite (fb : Framebuffer) (vx vy : Nat) (sprite : List Byte) : Framebuffer × Bool :=
  (spritePixels vx vy 0 sprite).foldl drawPixel (fb, false)

end Sys2Proof.Machine
end

