-- ==== Sys2Proof/Machine/Display.lean ====
section
/-! DEFINITION. The framebuffer instructions: 00E0, Dxyn (45_display.md). -/

namespace Sys2Proof.Machine

/-- 00E0 (R150): every pixel 0. -/
def execCls (s : State) : StepResult := advance (setFb 0 s)

/-- Dxyn (R151 to R157): XOR the n bytes at I onto the framebuffer, column Vx, row Vy, wrapping per pixel; VF <-
collision, written after Vx and Vy were read. n = 0 reads nothing and cannot fault. -/
def execDrw (x y : RegIdx) (n : Nibble) (s : State) : StepResult :=
  withRange n.toNat s
    (let drawn := drawSprite s.fb (getV s x).toNat (getV s y).toNat (Memory.readBytes s.mem s.i.toNat n.toNat)
     advance (setFlag drawn.2 (setFb drawn.1 s)))

end Sys2Proof.Machine
end

