-- ==== Sys2Proof/Machine/Flow.lean ====
section
/-! DEFINITION. Control transfer: 00EE, 1nnn, 2nnn, Bnnn (41_flow.md). -/

namespace Sys2Proof.Machine

/-- 00EE (R100): pop the return address into PC; StackUnderflow when SP = 0. -/
def execRet (s : State) : StepResult :=
  match pop s with
  | none => raise .stackUnderflow
  | some (target, t) => retire target t

/-- 1nnn (R101): PC <- nnn. -/
def execJp (nnn : Addr12) (s : State) : StepResult := retire (addrOf nnn) s

/-- 2nnn (R102): push PC + 2, PC <- nnn; StackOverflow when SP = 16. -/
def execCall (nnn : Addr12) (s : State) : StepResult :=
  match push (s.pc + 2) s with
  | none => raise .stackOverflow
  | some t => retire (addrOf nnn) t

/-- Bnnn (R103): PC <- nnn + V0, in 16 bits, not masked to 12. -/
def execJpV0 (nnn : Addr12) (s : State) : StepResult := retire (addrOf nnn + wordOf (getV s V0)) s

end Sys2Proof.Machine
end

