-- ==== Sys2Proof/Machine/IndexMemory.lean ====
section
/-! DEFINITION. Index register and memory: Annn, Fx1E, Fx29, Fx33, Fx55, Fx65 (44_index_memory.md). The one addressing
mode is I + k, in the integers; no instruction here but Annn, Fx1E, Fx29 changes I (R146). -/

namespace Sys2Proof.Machine

/-- Annn (R140): I <- nnn. -/
def execLdI (nnn : Addr12) (s : State) : StepResult := advance (setI (addrOf nnn) s)

/-- Fx1E (R141): I <- I + Vx modulo 65536, no flag, no fault. -/
def execAddI (x : RegIdx) (s : State) : StepResult := advance (setI (s.i + wordOf (getV s x)) s)

/-- Fx29 (R142): I <- the address of glyph Vx; InvalidGlyphIndex when Vx > 15. -/
def execLdF (x : RegIdx) (s : State) : StepResult :=
  match indexOf (getV s x) with
  | none => raise (.invalidGlyphIndex (getV s x))
  | some d => advance (setI (glyphAddr d) s)

/-- Fx33 (R143): the decimal digits of Vx to I, I + 1, I + 2. -/
def execLdB (x : RegIdx) (s : State) : StepResult :=
  withRange 3 s (advance (setMem (Memory.writeBytes s.mem s.i.toNat (bcdDigits (getV s x))) s))

/-- Fx55 (R144): V0 to Vx to I to I + x; I unchanged. -/
def execLdMem (x : RegIdx) (s : State) : StepResult :=
  withRange (x.toNat + 1) s (advance (setMem (Memory.writeBytes s.mem s.i.toNat (blockV s x)) s))

/-- Fx65 (R145): V0 to Vx from I to I + x; I unchanged. -/
def execLdVxMem (x : RegIdx) (s : State) : StepResult :=
  withRange (x.toNat + 1) s (advance (setVFrom 0 (Memory.readBytes s.mem s.i.toNat (x.toNat + 1)) s))

end Sys2Proof.Machine
end

