-- ==== Sys2Proof/Machine/KeypadTimers.lean ====
section
/-! DEFINITION. Keypad and timers: Ex9E, ExA1, Fx0A, Fx07, Fx15, Fx18 (46_keypad_timers.md). -/

namespace Sys2Proof.Machine

/-- Ex9E (R160): skip if key Vx is down; InvalidKeyIndex when Vx > 15. -/
def execSkp (x : RegIdx) (s : State) : StepResult :=
  match indexOf (getV s x) with
  | none => raise (.invalidKeyIndex (getV s x))
  | some k => skipIf (keyDown s k) s

/-- ExA1 (R161): skip if key Vx is up; InvalidKeyIndex when Vx > 15. -/
def execSknp (x : RegIdx) (s : State) : StepResult :=
  match indexOf (getV s x) with
  | none => raise (.invalidKeyIndex (getV s x))
  | some k => skipIf (!keyDown s k) s

/-- Fx0A (R162, R87): with no key down wait, else Vx <- the lowest key that is down. -/
def execLdVxK (x : RegIdx) (s : State) : StepResult :=
  match lowestKey s with
  | none => keepWaiting s
  | some k => advance (setV x (BitVec.ofNat 8 k) s)

/-- Fx07 (R163): Vx <- DT. -/
def execLdVxDt (x : RegIdx) (s : State) : StepResult := advance (setV x s.dt s)

/-- Fx15 (R164): DT <- Vx. -/
def execLdDtVx (x : RegIdx) (s : State) : StepResult := advance (setDt (getV s x) s)

/-- Fx18 (R165): ST <- Vx. -/
def execLdStVx (x : RegIdx) (s : State) : StepResult := advance (setSt (getV s x) s)

end Sys2Proof.Machine
end

