-- ==== Sys2Proof/Machine/LoadAlu.lean ====
section
/-! DEFINITION. Register loads and arithmetic: 6xkk, 7xkk, 8xy0 to 8xy7, 8xyE, Cxkk (43_load_alu.md). Operands are read
from the state before any write (R133); 8-bit results wrap (R132). -/

namespace Sys2Proof.Machine

/-- 6xkk (R120): Vx <- kk. -/
def execLdKk (x : RegIdx) (kk : Byte) (s : State) : StepResult := advance (setV x kk s)

/-- 7xkk (R121): Vx <- Vx + kk modulo 256, no flag. -/
def execAddKk (x : RegIdx) (kk : Byte) (s : State) : StepResult := advance (setV x (getV s x + kk) s)

/-- 8xy0 (R122): Vx <- Vy. -/
def execLdVy (x y : RegIdx) (s : State) : StepResult := advance (setV x (getV s y) s)

/-- 8xy1 (R123): Vx <- Vx OR Vy, VF not written as a flag. -/
def execOr (x y : RegIdx) (s : State) : StepResult := advance (setV x (getV s x ||| getV s y) s)

/-- 8xy2 (R124): Vx <- Vx AND Vy, VF not written as a flag. -/
def execAnd (x y : RegIdx) (s : State) : StepResult := advance (setV x (getV s x &&& getV s y) s)

/-- 8xy3 (R125): Vx <- Vx XOR Vy, VF not written as a flag. -/
def execXor (x y : RegIdx) (s : State) : StepResult := advance (setV x (getV s x ^^^ getV s y) s)

/-- 8xy4 (R126): Vx <- Vx + Vy modulo 256, VF <- carry. -/
def execAddVy (x y : RegIdx) (s : State) : StepResult :=
  writeWithFlag x (getV s x + getV s y) (carryOf (getV s x) (getV s y)) s

/-- 8xy5 (R127): Vx <- Vx − Vy modulo 256, VF <- 1 iff Vx > Vy. -/
def execSub (x y : RegIdx) (s : State) : StepResult :=
  writeWithFlag x (getV s x - getV s y) (exceeds (getV s x) (getV s y)) s

/-- 8xy6 (R128): Vx shifted right in place by 1, VF <- the bit shifted out; y is not used (log entry 4). -/
def execShr (x _y : RegIdx) (s : State) : StepResult :=
  writeWithFlag x (getV s x >>> 1) (lowBit (getV s x)) s

/-- 8xy7 (R129): Vx <- Vy − Vx modulo 256, VF <- 1 iff Vy > Vx. -/
def execSubn (x y : RegIdx) (s : State) : StepResult :=
  writeWithFlag x (getV s y - getV s x) (exceeds (getV s y) (getV s x)) s

/-- 8xyE (R130): Vx shifted left in place by 1, VF <- the bit shifted out; y is not used (log entry 4). -/
def execShl (x _y : RegIdx) (s : State) : StepResult :=
  writeWithFlag x (getV s x <<< 1) (highBit (getV s x)) s

/-- Cxkk with the random byte given (R131). -/
def rndWith (rnd : Byte) (x : RegIdx) (kk : Byte) (s : State) : StepResult := advance (setV x (rnd &&& kk) s)

/-- Cxkk (R131): Vx <- rnd AND kk, where rnd is the free value `Config.rnd` (R88, log entry 2). -/
def execRnd (x : RegIdx) (kk : Byte) (s : State) : StepResult := rndWith (Config.rnd s.draws) x kk (countDraw s)

end Sys2Proof.Machine
end

