-- ==== Sys2Proof/Machine/Skip.lean ====
section
/-! DEFINITION. Conditional skips on registers: 3xkk, 4xkk, 5xy0, 9xy0 (42_skip.md). -/

namespace Sys2Proof.Machine

/-- 3xkk (R110): skip if Vx = kk. -/
def execSeKk (x : RegIdx) (kk : Byte) (s : State) : StepResult := skipIf (getV s x == kk) s

/-- 4xkk (R111): skip if Vx ≠ kk. -/
def execSneKk (x : RegIdx) (kk : Byte) (s : State) : StepResult := skipIf (getV s x != kk) s

/-- 5xy0 (R112): skip if Vx = Vy. -/
def execSeVy (x y : RegIdx) (s : State) : StepResult := skipIf (getV s x == getV s y) s

/-- 9xy0 (R113): skip if Vx ≠ Vy. -/
def execSneVy (x y : RegIdx) (s : State) : StepResult := skipIf (getV s x != getV s y) s

end Sys2Proof.Machine
end

