-- ==== Sys2Proof/Machine/Step.lean ====
section
/-! DEFINITION. One step of the engine (40_step_cycle.md R85): fetch, decode, execute; the commit of WAIT is part of how
each instruction ends (Ops.lean). -/

namespace Sys2Proof.Machine

/-- `step(rnd)` of R85, the byte `rnd` being the free value of Cxkk (log entry 2). A fault of the fetch or of decode
changes nothing, as every fault (R171). -/
def step (s : State) : Host.Outcome State Fault Refusal :=
  match fetchInstr s with
  | .error f => raise f
  | .ok i => exec i s

/-- `s` with the instruction word `w` at PC, so that the next step fetches and runs it. Every instruction is one 16-bit
word (R60), so `nbits` carries nothing. -/
def State.withFetchWord (s : State) (_nbits w : Nat) : State := placeWord (BitVec.ofNat 16 w) s

end Sys2Proof.Machine
end

