-- ==== Sys2Proof/Machine/Session.lean ====
section
/-! DEFINITION. The host's operations and their interleaving with the engine's step (40_step_cycle.md R80 to R84, R91;
60_exceptions.md R180; 70_reset_and_hazards.md R200 to R206). -/

namespace Sys2Proof.Machine

/-- `reset()` (R81): the state of R201, whatever went before. The model's own counter of draws goes on, so that the
bytes drawn after a reset stay free (log entry 3). -/
def hostReset (s : State) : State := { State.reset with draws := s.draws }

/-- `load(bytes)` (R82, R54): the bytes to 0x200 upward; `none` (rejected) when there are more than 3584, and then no
byte is written. -/
def hostLoad (bytes : List Byte) (s : State) : Option State :=
  if bytes.length ≤ Config.progMax then some (setMem (Memory.writeBytes s.mem Config.progBase bytes) s) else none

/-- `set_keys(K)` (R83): all 16 keys replaced at once. -/
def hostSetKeys (k : Vector Bool 16) (s : State) : State := setKey k s

/-- A timer after N ticks: the subtraction in the integers, floored at zero (R84). -/
def tickTimer (n : Nat) (t : Byte) : Byte := if n ≤ t.toNat then BitVec.ofNat 8 (t.toNat - n) else 0

/-- `tick(N)` (R84): both timers take the same N. -/
def hostTick (n : Nat) (s : State) : State := setDt (tickTimer n s.dt) (setSt (tickTimer n s.st) s)

/-- The five operations (R80); `step` takes its random byte from the free value. -/
inductive Operation where
  | reset
  | load (bytes : List Byte)
  | setKeys (k : Vector Bool 16)
  | tick (n : Nat)
  | step
deriving DecidableEq, Repr

/-- What an operation answers (R80): nothing, accepted or rejected, `ok` or `fault`. -/
inductive Reply where
  | done
  | accepted
  | rejected
  | ok
  | fault (f : Fault)
deriving DecidableEq, Repr

/-- A session (R9): the core, whether a step has been made since the reset (R82), and the first fault of the run (R180).
The last two are the host's record and no state of the core (log entry 6). -/
structure Session where
  core : State
  stepped : Bool
  firstFault : Option Fault
deriving DecidableEq, Repr

/-- A session starts at the state of R201 (R202). -/
def Session.start : Session := { core := State.reset, stepped := false, firstFault := none }

/-- One operation on a session. `none`: the model has no such move, which is so for a `load` after a step alone
(R82, 93_implementation_defined.md U14). A faulting step leaves the core as it was, and the core has no fault latch
(R171, R180). -/
def perform (op : Operation) (x : Session) : Option (Reply × Session) :=
  match op with
  | .reset => some (.done, { core := hostReset x.core, stepped := false, firstFault := none })
  | .load bytes =>
    if x.stepped then none
    else
      match hostLoad bytes x.core with
      | none => some (.rejected, x)
      | some s => some (.accepted, { x with core := s })
  | .setKeys k => some (.done, { x with core := hostSetKeys k x.core })
  | .tick n => some (.done, { x with core := hostTick n x.core })
  | .step =>
    match step x.core with
    | .next s => some (.ok, { x with core := s, stepped := true })
    | .fault f => some (.fault f, { x with stepped := true, firstFault := x.firstFault.or (some f) })
    | .refused _ => none

/-- A sequence of operations, oldest first, with the replies (R80: one total order). -/
def performAll : List Operation → Session → Option (List Reply × Session)
  | [], x => some ([], x)
  | op :: ops, x =>
    match perform op x with
    | none => none
    | some (r, y) =>
      match performAll ops y with
      | none => none
      | some (rs, z) => some (r :: rs, z)

end Sys2Proof.Machine
end

