-- ==== Sys2Proof/Safety.lean ====
section
/-! DEFINITION. The terms the claims use: what a step leaves unchanged, which pixels a sprite lights, which words are
invalid, and the invariants of a run. -/

namespace Sys2Proof.Machine

/-! ### Frames -/

/-- The pieces of state of 10_state.md R34, and the model's own counter of draws. -/
inductive Part where
  | v | i | pc | stack | dt | st | key | fb | mem | wait | draws
deriving DecidableEq, Repr

/-- Two states agree on a piece: every register, the stack with its pointer, every byte of memory, and so on. -/
def Same : Part → State → State → Prop
  | .v, s, t => ∀ r, getV t r = getV s r
  | .i, s, t => t.i = s.i
  | .pc, s, t => t.pc = s.pc
  | .stack, s, t => t.sp = s.sp ∧ t.stack = s.stack
  | .dt, s, t => t.dt = s.dt
  | .st, s, t => t.st = s.st
  | .key, s, t => t.key = s.key
  | .fb, s, t => t.fb = s.fb
  | .mem, s, t => ∀ a, Memory.read t.mem a = Memory.read s.mem a
  | .wait, s, t => t.wait = s.wait
  | .draws, s, t => t.draws = s.draws

/-- Going from `s` to `t` changes nothing outside the pieces listed. -/
def OnlyChanges (parts : List Part) (s t : State) : Prop := ∀ p, p ∉ parts → Same p s t

/-! ### The sprite of Dxyn, as 45_display.md R151, R153 and R154 give it -/

/-- A 1 bit of the n-byte sprite at I falls on pixel (row, col) when it is drawn at (Vx, Vy): bit 7 − b of byte k falls
on row (Vy + k) mod 32, column (Vx + b) mod 64. -/
def SpriteBitAt (s : State) (x y : RegIdx) (n : Nibble) (row col : Nat) : Prop :=
  ∃ k, k < n.toNat ∧ ∃ b, b < 8 ∧ (Memory.read s.mem (s.i.toNat + k)).getLsbD (7 - b) = true ∧
    row = ((getV s y).toNat + k) % 32 ∧ col = ((getV s x).toNat + b) % 64

/-- Some 1 bit of the sprite falls on a pixel that is 1 (R155). -/
def SpriteCollides (s : State) (x y : RegIdx) (n : Nibble) : Prop :=
  ∃ row col, SpriteBitAt s x y n row col ∧ pixel s.fb row col = true

/-- Some 1 bit of the sprite falls on a pixel that is 0 (R158). -/
def SpriteHitsClear (s : State) (x y : RegIdx) (n : Nibble) : Prop :=
  ∃ row col, SpriteBitAt s x y n row col ∧ pixel s.fb row col = false

/-! ### Invalid words, family by family (30_encoding.md R68) -/

/-- The word is one of the invalid words that R68 lists. -/
def InvalidWord (w : Word) : Prop :=
  (opOf w = 0x0#4 ∧ w ≠ 0x00E0#16 ∧ w ≠ 0x00EE#16) ∨
  (opOf w = 0x5#4 ∧ nOf w ≠ 0) ∨
  (opOf w = 0x8#4 ∧ nOf w ∈ [0x8#4, 0x9#4, 0xA#4, 0xB#4, 0xC#4, 0xD#4, 0xF#4]) ∨
  (opOf w = 0x9#4 ∧ nOf w ≠ 0) ∨
  (opOf w = 0xE#4 ∧ kkOf w ∉ [0x9E#8, 0xA1#8]) ∨
  (opOf w = 0xF#4 ∧ kkOf w ∉ [0x07#8, 0x0A#8, 0x15#8, 0x18#8, 0x1E#8, 0x29#8, 0x33#8, 0x55#8, 0x65#8])

/-! ### Invariants of a run -/

/-- In AwaitingKey the instruction at PC is Fx0A (40_step_cycle.md R87). -/
def WaitsAtFx0A (s : State) : Prop := s.wait = true → ∃ x, fetchInstr s = .ok (.ldVxK x)

/-- What holds of every reachable state: memory is in canonical form; PC is at most 0x10FE and a stack entry at most
4096 (10_state.md R18, R34); AwaitingKey only at an Fx0A (R87). -/
def CoreInv (s : State) : Prop :=
  Memory.wf s.mem ∧ s.pc.toNat ≤ 0x10FE ∧ (∀ k : Fin 16, s.stack[k].toNat ≤ 4096) ∧ WaitsAtFx0A s

/-- What holds of every reachable session: the invariant of the core, and Ready before the first step. -/
def SessionInv (x : Session) : Prop := CoreInv x.core ∧ (x.stepped = false → x.core.wait = false)

end Sys2Proof.Machine
end

