-- ==== Sys2Proof/Certificates/Slice0/Obligations.lean ====
section
/-! DEFINITION. The statements for the provers. Results are stated through `getV`, `Memory.read`, `pixel` and `keyDown`
in integer arithmetic, apart from the model's own flag and operand functions; `OnlyChanges` is the frame. -/

open Sys2Proof Sys2Proof.Machine

/-! ### Encoding and decoding -/

/-- Every well-formed instruction, laid out in memory big-endian, decodes to itself and leaves the bytes that follow. -/
def Obligations.DecodeOfEncode : Prop :=
  ∀ (i : Instr) (rest : List Byte), WellFormed i = true →
    decode (encodeBytes i ++ rest) = .ok (i, rest) ∧ decodeWord (encode i) = some i

/-- A valid word has one meaning: it is the word of the instruction it decodes to. -/
def Obligations.EncodeOfDecode : Prop :=
  ∀ (w : Word) (i : Instr), decodeWord w = some i → encode i = w

/-- R66, family 8 numbered as R67 takes it from general knowledge (log entry 9): 34 rows; no word
matches two rows; a word decodes
to an instruction of the row it matches; a word that matches no row is invalid. -/
def Obligations.DecoderIsTheOpcodeMap : Prop :=
  opcodeTable.length = 34 ∧
  (∀ (w : Word) (r₁ r₂ : OpcodeRow), r₁ ∈ opcodeTable → r₂ ∈ opcodeTable →
    r₁.covers w = true → r₂.covers w = true → r₁ = r₂) ∧
  (∀ (w : Word) (i : Instr), decodeWord w = some i → i.row ∈ opcodeTable ∧ i.row.covers w = true) ∧
  (∀ w : Word, decodeWord w = none ↔ ∀ r ∈ opcodeTable, r.covers w = false)

/-- The invalid words are exactly those that R68 lists family by family (family 9 by decision D26, the sub-opcodes of
family 8 by R67). -/
def Obligations.InvalidWordsExactly : Prop :=
  ∀ w : Word, decodeWord w = none ↔ InvalidWord w

/-- A few words written out from the opcode map and the worked examples. -/
def Obligations.SampleWordsDecode : Prop :=
  decodeWord 0x00E0#16 = some .cls ∧ decodeWord 0x1204#16 = some (.jp 0x204#12) ∧
  decodeWord 0x332A#16 = some (.seKk 0x3#4 0x2A#8) ∧ decodeWord 0x8014#16 = some (.addVy 0x0#4 0x1#4) ∧
  decodeWord 0xF255#16 = some (.ldMem 0x2#4) ∧ decodeWord 0xD7A5#16 = some (.drw 0x7#4 0xA#4 0x5#4) ∧
  decodeWord 0xE29E#16 = some (.skp 0x2#4) ∧ decodeWord 0x5123#16 = none ∧ decodeWord 0x0123#16 = none

/-! ### The step -/

/-- A fetch above 4094 faults with max(PC, 4096), the spec's decision D4 (R44); at or below, the word is
MEM[PC] ‖ MEM[PC + 1] (R43), odd PC or even (decision D6, R48). -/
def Obligations.FetchBoundsAndByteOrder : Prop :=
  ∀ s : State,
    (4094 < s.pc.toNat →
      fetch s = .error (.memoryOutOfRange (BitVec.ofNat 16 (max s.pc.toNat 4096))) ∧
      step s = .fault (.memoryOutOfRange (BitVec.ofNat 16 (max s.pc.toNat 4096)))) ∧
    (s.pc.toNat ≤ 4094 → ∃ w, fetch s = .ok w ∧
      w.toNat = (Memory.read s.mem s.pc.toNat).toNat * 256 + (Memory.read s.mem (s.pc.toNat + 1)).toNat)

/-- When the two bytes at PC decode to an instruction, the step is that instruction's execution and nothing else: PC and
WAIT are written by the instruction itself. -/
def Obligations.StepRunsDecodedInstruction : Prop :=
  ∀ (s : State) (i : Instr) (rest : List Byte), s.pc.toNat ≤ 4094 →
    decode [Memory.read s.mem s.pc.toNat, Memory.read s.mem (s.pc.toNat + 1)] = .ok (i, rest) →
    step s = exec i s

/-- A fetched word that matches no row faults InvalidOpcode with the word as info, whatever the registers hold. -/
def Obligations.InvalidWordFaults : Prop :=
  ∀ (s : State) (w : Word), fetch s = .ok w → InvalidWord w → step s = .fault (.invalidOpcode w)

/-- Every step answers a next state or one of the spec's faults: no step is refused. -/
def Obligations.NoStepIsRefused : Prop :=
  ∀ (s : State) (r : Refusal), step s ≠ .refused r

/-- R172, which the spec marks as derived: which instructions can fault, and when; every other instruction never does.
Four of the causes are the spec's decisions D4, D7, D8. -/
def Obligations.WhichInstructionsFault : Prop :=
  ∀ (i : Instr) (s : State) (f : Fault), exec i s = .fault f →
    (i = .ret ∧ f = .stackUnderflow ∧ s.sp = 0) ∨
    ((∃ nnn, i = .call nnn) ∧ f = .stackOverflow ∧ s.sp = 16) ∨
    (∃ x, i = .ldF x ∧ f = .invalidGlyphIndex (getV s x) ∧ 15 < (getV s x).toNat) ∨
    (∃ x, (i = .skp x ∨ i = .sknp x) ∧ f = .invalidKeyIndex (getV s x) ∧ 15 < (getV s x).toNat) ∨
    (∃ a len, f = .memoryOutOfRange a ∧ a.toNat = max s.i.toNat 4096 ∧ 0 < len ∧ 4095 < s.i.toNat + len - 1 ∧
      ((∃ x y n, i = .drw x y n ∧ len = n.toNat) ∨ (∃ x, i = .ldB x ∧ len = 3) ∨
       (∃ x, (i = .ldMem x ∨ i = .ldVxMem x) ∧ len = x.toNat + 1)))

/-- Who writes what (the "written by" column of R34, with R16 for PC and R31 for WAIT). KEY is written by no instruction;
V, I, SP, STACK, DT, ST, FB, MEM and the model's own counter of draws (log entry 3) change only by the instructions named;
PC ends other than at PC + 2 only by those named; WAIT is written by every one, to 1 exactly when it is an Fx0A with every
key up. Which of Fx07, Fx15 and Fx18 is which is the spec's decision D18, that Fx55 and Fx65 do not write I its decision
D12, the numbering of family 8 its passage G2 (log entry 9). -/
def Obligations.OnlyNamedInstructionsWrite : Prop :=
  ∀ (i : Instr) (s t : State), exec i s = .next t →
    t.key = s.key ∧
    (∀ r, getV t r ≠ getV s r →
      (∃ kk, i = .ldKk r kk ∨ i = .addKk r kk ∨ i = .rnd r kk) ∨
      (∃ y, i = .ldVy r y ∨ i = .orVy r y ∨ i = .andVy r y ∨ i = .xorVy r y ∨ i = .addVy r y ∨ i = .sub r y ∨
        i = .shr r y ∨ i = .subn r y ∨ i = .shl r y) ∨
      i = .ldVxDt r ∨ i = .ldVxK r ∨ (∃ x, i = .ldVxMem x ∧ r.toNat ≤ x.toNat) ∨
      (r = VF ∧ ((∃ x y, i = .addVy x y ∨ i = .sub x y ∨ i = .shr x y ∨ i = .subn x y ∨ i = .shl x y) ∨
        ∃ x y n, i = .drw x y n))) ∧
    (t.i ≠ s.i → (∃ nnn, i = .ldI nnn) ∨ (∃ x, i = .addI x) ∨ ∃ x, i = .ldF x) ∧
    (t.pc ≠ s.pc + 2 →
      i = .ret ∨ (∃ nnn, i = .jp nnn ∨ i = .call nnn ∨ i = .jpV0 nnn) ∨ (∃ x kk, i = .seKk x kk ∨ i = .sneKk x kk) ∨
      (∃ x y, i = .seVy x y ∨ i = .sneVy x y) ∨ ∃ x, i = .skp x ∨ i = .sknp x ∨ i = .ldVxK x) ∧
    (t.sp ≠ s.sp → i = .ret ∨ ∃ nnn, i = .call nnn) ∧
    (t.stack ≠ s.stack → ∃ nnn, i = .call nnn) ∧
    (t.dt ≠ s.dt → ∃ x, i = .ldDtVx x) ∧
    (t.st ≠ s.st → ∃ x, i = .ldStVx x) ∧
    (t.fb ≠ s.fb → i = .cls ∨ ∃ x y n, i = .drw x y n) ∧
    (¬ Same .mem s t → (∃ x, i = .ldB x) ∨ ∃ x, i = .ldMem x) ∧
    (t.draws ≠ s.draws → ∃ x kk, i = .rnd x kk) ∧
    (t.wait = true ↔ (∃ x, i = .ldVxK x) ∧ ∀ k : Fin 16, s.key[k] = false)

/-- The writers of VF (R12): it is overwritten as a side effect by 8xy4, 8xy5, 8xy6, 8xy7, 8xyE and Dxyn alone,
each to 0 or 1; any other instruction writes VF only as its destination x, or inside the block of Fx65. The numbering of family 8 is the spec's
passage G2, the flag winning over the result its decision D10, no flag of OR, AND, XOR its decision D11 (log entry 9). -/
def Obligations.OnlyFlagInstructionsTouchVF : Prop :=
  ∀ (i : Instr) (s t : State), exec i s = .next t →
    ((∃ x y, i = .addVy x y ∨ i = .sub x y ∨ i = .shr x y ∨ i = .subn x y ∨ i = .shl x y) ∨
      (∃ x y n, i = .drw x y n) → getV t VF = 0 ∨ getV t VF = 1) ∧
    (getV t VF ≠ getV s VF →
      (∃ x y, i = .addVy x y ∨ i = .sub x y ∨ i = .shr x y ∨ i = .subn x y ∨ i = .shl x y) ∨
      (∃ x y n, i = .drw x y n) ∨
      (∃ kk, i = .ldKk VF kk ∨ i = .addKk VF kk ∨ i = .rnd VF kk) ∨
      (∃ y, i = .ldVy VF y ∨ i = .orVy VF y ∨ i = .andVy VF y ∨ i = .xorVy VF y) ∨
      i = .ldVxDt VF ∨ i = .ldVxK VF ∨ i = .ldVxMem VF)

/-! ### Reset and invariants -/

/-- R201: the reset value of every element of state; and reset() puts every one of them there, from whatever state (R200).
The model's own counter of draws, which is no element of the spec's state, is not spoken of (log entry 3). -/
def Obligations.ResetValues : Prop :=
  (∀ r, getV State.reset r = 0) ∧ State.reset.i = 0 ∧ State.reset.pc = 0x200#16 ∧ State.reset.sp = 0 ∧
  (∀ k : Fin 16, State.reset.stack[k] = 0) ∧ State.reset.dt = 0 ∧ State.reset.st = 0 ∧
  (∀ k, keyDown State.reset k = false) ∧
  (∀ row col, row < 32 → col < 64 → pixel State.reset.fb row col = false) ∧
  font.length = 80 ∧
  (∀ (a : Nat) (h : a < font.length), Memory.read State.reset.mem a = font[a]) ∧
  (∀ a, 0x050 ≤ a → a ≤ 0xFFF → Memory.read State.reset.mem a = 0) ∧
  State.reset.wait = false ∧
  ∀ (s : State) (p : Part), p ≠ .draws → Same p State.reset (hostReset s)

/-- The invariant holds at reset. -/
def Obligations.ResetHasInv : Prop := CoreInv State.reset

/-- Every step keeps the invariant: canonical memory, PC at most 0x10FE, stack entries at most 4096, AwaitingKey only at
an Fx0A. -/
def Obligations.StepKeepsInv : Prop :=
  ∀ s t : State, CoreInv s → step s = .next t → CoreInv t

/-- Every operation of the host or the engine keeps the session's invariant, and a session starts in it. -/
def Obligations.EveryOperationKeepsSessionInv : Prop :=
  SessionInv Session.start ∧
  ∀ (op : Operation) (x y : Session) (r : Reply), SessionInv x → perform op x = some (r, y) → SessionInv y

/-! ### Memory -/

/-- A write changes that byte and no other (R46), and inside memory it keeps the model's canonical form. -/
def Obligations.WriteChangesOneByte : Prop :=
  ∀ (m : Memory) (a : Nat) (v : Byte),
    Memory.read (Memory.write m a v) a = v ∧
    (∀ b, b ≠ a → Memory.read (Memory.write m a v) b = Memory.read m b) ∧
    (a ≤ 4095 → Memory.wf m → Memory.wf (Memory.write m a v))

/-! ### Control transfer (41_flow.md) -/

/-- RET pops PC (R100). That the entry is STACK[SP − 1] and is not cleared, and that SP = 0 faults StackUnderflow, is the
spec's decision D7. -/
def Obligations.RetPops : Prop :=
  decodeWord 0x00EE#16 = some .ret ∧
  ∀ s : State,
    (s.sp = 0 → exec .ret s = .fault .stackUnderflow) ∧
    (∀ h : 0 < s.sp.val, ∃ t, exec .ret s = .next t ∧
      t.pc = s.stack[s.sp.val - 1] ∧ t.sp.val = s.sp.val - 1 ∧ t.stack = s.stack ∧ t.wait = false ∧
      OnlyChanges [.pc, .stack, .wait] s t)

/-- R101: JP nnn. -/
def Obligations.JpSetsPc : Prop :=
  ∀ (nnn : Addr12) (s : State), decodeWord (wordNnn 0x1 nnn) = some (.jp nnn) ∧
    ∃ t, exec (.jp nnn) s = .next t ∧ t.pc.toNat = nnn.toNat ∧ t.wait = false ∧ OnlyChanges [.pc, .wait] s t

/-- CALL pushes PC + 2 and jumps (R102). That the entry is STACK[SP], and that SP = 16 faults StackOverflow, is the spec's
decision D7. -/
def Obligations.CallPushes : Prop :=
  ∀ (nnn : Addr12) (s : State), decodeWord (wordNnn 0x2 nnn) = some (.call nnn) ∧
    (s.sp = 16 → exec (.call nnn) s = .fault .stackOverflow) ∧
    (s.sp.val < 16 → ∃ t, exec (.call nnn) s = .next t ∧
      t.pc.toNat = nnn.toNat ∧ t.sp.val = s.sp.val + 1 ∧
      (∀ k : Fin 16, t.stack[k] =
        if k.val = s.sp.val then BitVec.ofNat 16 ((s.pc.toNat + 2) % 65536) else s.stack[k]) ∧
      t.wait = false ∧ OnlyChanges [.pc, .stack, .wait] s t)

/-- JP V0, nnn: PC is nnn + V0 (R103); that the sum is not masked to 12 bits is the spec's decision D6. -/
def Obligations.JpV0AddsV0 : Prop :=
  ∀ (nnn : Addr12) (s : State), decodeWord (wordNnn 0xB nnn) = some (.jpV0 nnn) ∧
    ∃ t, exec (.jpV0 nnn) s = .next t ∧ t.pc.toNat = nnn.toNat + (getV s V0).toNat ∧ t.wait = false ∧
      OnlyChanges [.pc, .wait] s t

/-! ### Skips (42_skip.md) -/

/-- R110: SE Vx, kk. -/
def Obligations.SeKkSkips : Prop :=
  ∀ (x : RegIdx) (kk : Byte) (s : State), decodeWord (wordXkk 0x3 x kk) = some (.seKk x kk) ∧
    ∃ t, exec (.seKk x kk) s = .next t ∧
      (getV s x = kk → t.pc = s.pc + 4) ∧ (getV s x ≠ kk → t.pc = s.pc + 2) ∧ t.wait = false ∧
      OnlyChanges [.pc, .wait] s t

/-- R111: SNE Vx, kk. -/
def Obligations.SneKkSkips : Prop :=
  ∀ (x : RegIdx) (kk : Byte) (s : State), decodeWord (wordXkk 0x4 x kk) = some (.sneKk x kk) ∧
    ∃ t, exec (.sneKk x kk) s = .next t ∧
      (getV s x ≠ kk → t.pc = s.pc + 4) ∧ (getV s x = kk → t.pc = s.pc + 2) ∧ t.wait = false ∧
      OnlyChanges [.pc, .wait] s t

/-- R112: SE Vx, Vy; a word 5xyn with n ≠ 0 is not this instruction but invalid. -/
def Obligations.SeVySkips : Prop :=
  ∀ (x y : RegIdx) (s : State), decodeWord (wordXyn 0x5 x y 0x0) = some (.seVy x y) ∧
    (∀ n, n ≠ 0x0#4 → decodeWord (wordXyn 0x5 x y n) = none) ∧
    ∃ t, exec (.seVy x y) s = .next t ∧
      (getV s x = getV s y → t.pc = s.pc + 4) ∧ (getV s x ≠ getV s y → t.pc = s.pc + 2) ∧ t.wait = false ∧
      OnlyChanges [.pc, .wait] s t

/-- SNE Vx, Vy (R113); that a word 9xyn with n ≠ 0 is invalid is the spec's decision D26 (log entry 9). -/
def Obligations.SneVySkips : Prop :=
  ∀ (x y : RegIdx) (s : State), decodeWord (wordXyn 0x9 x y 0x0) = some (.sneVy x y) ∧
    (∀ n, n ≠ 0x0#4 → decodeWord (wordXyn 0x9 x y n) = none) ∧
    ∃ t, exec (.sneVy x y) s = .next t ∧
      (getV s x ≠ getV s y → t.pc = s.pc + 4) ∧ (getV s x = getV s y → t.pc = s.pc + 2) ∧ t.wait = false ∧
      OnlyChanges [.pc, .wait] s t

/-! ### Loads and arithmetic (43_load_alu.md) -/

/-- R120: LD Vx, kk. -/
def Obligations.LdKkLoads : Prop :=
  ∀ (x : RegIdx) (kk : Byte) (s : State), decodeWord (wordXkk 0x6 x kk) = some (.ldKk x kk) ∧
    ∃ t, exec (.ldKk x kk) s = .next t ∧ (∀ r, getV t r = if r = x then kk else getV s r) ∧
      t.pc = s.pc + 2 ∧ t.wait = false ∧ OnlyChanges [.v, .pc, .wait] s t

/-- R121: ADD Vx, kk modulo 256; VF is written only if it is x, and then with the sum. -/
def Obligations.AddKkWraps : Prop :=
  ∀ (x : RegIdx) (kk : Byte) (s : State), decodeWord (wordXkk 0x7 x kk) = some (.addKk x kk) ∧
    ∃ t, exec (.addKk x kk) s = .next t ∧
      (getV t x).toNat = ((getV s x).toNat + kk.toNat) % 256 ∧ (∀ r, r ≠ x → getV t r = getV s r) ∧
      t.pc = s.pc + 2 ∧ t.wait = false ∧ OnlyChanges [.v, .pc, .wait] s t

/-- LD Vx, Vy (R122); that 8xy0 is this one is the numbering of family 8, the spec's passage G2 (log entry 9). -/
def Obligations.LdVyCopies : Prop :=
  ∀ (x y : RegIdx) (s : State), decodeWord (wordXyn 0x8 x y 0x0) = some (.ldVy x y) ∧
    ∃ t, exec (.ldVy x y) s = .next t ∧ (∀ r, getV t r = if r = x then getV s y else getV s r) ∧
      t.pc = s.pc + 2 ∧ t.wait = false ∧ OnlyChanges [.v, .pc, .wait] s t

/-- OR Vx, Vy, bit by bit (R123); that VF is not written as a flag is the spec's decision D11, the numbering of family 8
its passage G2 (log entry 9). -/
def Obligations.OrIsBitwise : Prop :=
  ∀ (x y : RegIdx) (s : State), decodeWord (wordXyn 0x8 x y 0x1) = some (.orVy x y) ∧
    ∃ t, exec (.orVy x y) s = .next t ∧
      (∀ b, b < 8 → (getV t x).getLsbD b = ((getV s x).getLsbD b || (getV s y).getLsbD b)) ∧
      (∀ r, r ≠ x → getV t r = getV s r) ∧
      t.pc = s.pc + 2 ∧ t.wait = false ∧ OnlyChanges [.v, .pc, .wait] s t

/-- AND Vx, Vy, bit by bit (R124); that VF is not written as a flag is the spec's decision D11, the numbering of family 8
its passage G2 (log entry 9). -/
def Obligations.AndIsBitwise : Prop :=
  ∀ (x y : RegIdx) (s : State), decodeWord (wordXyn 0x8 x y 0x2) = some (.andVy x y) ∧
    ∃ t, exec (.andVy x y) s = .next t ∧
      (∀ b, b < 8 → (getV t x).getLsbD b = ((getV s x).getLsbD b && (getV s y).getLsbD b)) ∧
      (∀ r, r ≠ x → getV t r = getV s r) ∧
      t.pc = s.pc + 2 ∧ t.wait = false ∧ OnlyChanges [.v, .pc, .wait] s t

/-- XOR Vx, Vy, bit by bit (R125); that VF is not written as a flag is the spec's decision D11, the numbering of family 8
its passage G2 (log entry 9). -/
def Obligations.XorIsBitwise : Prop :=
  ∀ (x y : RegIdx) (s : State), decodeWord (wordXyn 0x8 x y 0x3) = some (.xorVy x y) ∧
    ∃ t, exec (.xorVy x y) s = .next t ∧
      (∀ b, b < 8 → (getV t x).getLsbD b = ((getV s x).getLsbD b != (getV s y).getLsbD b)) ∧
      (∀ r, r ≠ x → getV t r = getV s r) ∧
      t.pc = s.pc + 2 ∧ t.wait = false ∧ OnlyChanges [.v, .pc, .wait] s t

/-- ADD Vx, Vy: the sum modulo 256, VF = 1 iff the sum exceeds 255 (R126); that with x = 15 VF holds the flag is the
spec's decision D10 (R13, R133). -/
def Obligations.AddVySetsCarry : Prop :=
  ∀ (x y : RegIdx) (s : State), decodeWord (wordXyn 0x8 x y 0x4) = some (.addVy x y) ∧
    ∃ t, exec (.addVy x y) s = .next t ∧
      (∀ r, getV t r =
        if r = VF then (if (getV s x).toNat + (getV s y).toNat > 255 then 1 else 0)
        else if r = x then BitVec.ofNat 8 (((getV s x).toNat + (getV s y).toNat) % 256)
        else getV s r) ∧
      t.pc = s.pc + 2 ∧ t.wait = false ∧ OnlyChanges [.v, .pc, .wait] s t

/-- SUB Vx, Vy: Vx − Vy modulo 256, VF = 1 iff Vx > Vy, strictly (R127; log entry 5). The direction is the spec's
decision D28, the flag winning when x = 15 its decision D10, the numbering of family 8 its
passage G2 (log entry 9). -/
def Obligations.SubSetsStrictNoBorrow : Prop :=
  ∀ (x y : RegIdx) (s : State), decodeWord (wordXyn 0x8 x y 0x5) = some (.sub x y) ∧
    ∃ t, exec (.sub x y) s = .next t ∧
      (∀ r, getV t r =
        if r = VF then (if (getV s x).toNat > (getV s y).toNat then 1 else 0)
        else if r = x then BitVec.ofNat 8 (((getV s x).toNat + 256 - (getV s y).toNat) % 256)
        else getV s r) ∧
      t.pc = s.pc + 2 ∧ t.wait = false ∧ OnlyChanges [.v, .pc, .wait] s t

/-- SHR Vx by 1, VF = the old bit 0 (R128). That Vx is shifted in place and y not used is the spec's decision D9 (log
entry 4); the flag winning when x = 15 its decision D10, the numbering of family 8 its
passage G2 (log entry 9). -/
def Obligations.ShrShiftsVxInPlace : Prop :=
  ∀ (x y : RegIdx) (s : State), decodeWord (wordXyn 0x8 x y 0x6) = some (.shr x y) ∧
    ∃ t, exec (.shr x y) s = .next t ∧
      (∀ r, getV t r =
        if r = VF then BitVec.ofNat 8 ((getV s x).toNat % 2)
        else if r = x then BitVec.ofNat 8 ((getV s x).toNat / 2)
        else getV s r) ∧
      t.pc = s.pc + 2 ∧ t.wait = false ∧ OnlyChanges [.v, .pc, .wait] s t

/-- SUBN Vx, Vy: Vy − Vx modulo 256, VF = 1 iff Vy > Vx, strictly (R129; log entry 5). The direction is the spec's
decision D28, the flag winning when x = 15 its decision D10, the numbering of family 8 its
passage G2 (log entry 9). -/
def Obligations.SubnSetsStrictNoBorrow : Prop :=
  ∀ (x y : RegIdx) (s : State), decodeWord (wordXyn 0x8 x y 0x7) = some (.subn x y) ∧
    ∃ t, exec (.subn x y) s = .next t ∧
      (∀ r, getV t r =
        if r = VF then (if (getV s y).toNat > (getV s x).toNat then 1 else 0)
        else if r = x then BitVec.ofNat 8 (((getV s y).toNat + 256 - (getV s x).toNat) % 256)
        else getV s r) ∧
      t.pc = s.pc + 2 ∧ t.wait = false ∧ OnlyChanges [.v, .pc, .wait] s t

/-- SHL Vx by 1, VF = the old bit 7 (R130). That Vx is shifted in place and y not used is the spec's decision D9 (log
entry 4); the flag winning when x = 15 its decision D10, the numbering of family 8 its
passage G2 (log entry 9). -/
def Obligations.ShlShiftsVxInPlace : Prop :=
  ∀ (x y : RegIdx) (s : State), decodeWord (wordXyn 0x8 x y 0xE) = some (.shl x y) ∧
    ∃ t, exec (.shl x y) s = .next t ∧
      (∀ r, getV t r =
        if r = VF then BitVec.ofNat 8 ((getV s x).toNat / 128)
        else if r = x then BitVec.ofNat 8 ((getV s x).toNat * 2 % 256)
        else getV s r) ∧
      t.pc = s.pc + 2 ∧ t.wait = false ∧ OnlyChanges [.v, .pc, .wait] s t

/-- RND Vx, kk: Vx is the drawn byte AND kk, bit by bit (R131), and the next draw is a new one. That the byte is a free
input is the spec's decision D14; the statement holds whatever `Config.rnd` is (log entry 2), and the counter is the
model's own (log entry 3). -/
def Obligations.RndMasksTheDrawnByte : Prop :=
  ∀ (x : RegIdx) (kk : Byte) (s : State), decodeWord (wordXkk 0xC x kk) = some (.rnd x kk) ∧
    ∃ t, exec (.rnd x kk) s = .next t ∧
      (∀ b, b < 8 → (getV t x).getLsbD b = ((Config.rnd s.draws).getLsbD b && kk.getLsbD b)) ∧
      (∀ r, r ≠ x → getV t r = getV s r) ∧
      t.draws = s.draws + 1 ∧ t.pc = s.pc + 2 ∧ t.wait = false ∧ OnlyChanges [.v, .pc, .wait, .draws] s t

/-! ### Index register and memory (44_index_memory.md) -/

/-- R140: LD I, nnn. -/
def Obligations.LdILoads : Prop :=
  ∀ (nnn : Addr12) (s : State), decodeWord (wordNnn 0xA nnn) = some (.ldI nnn) ∧
    ∃ t, exec (.ldI nnn) s = .next t ∧ t.i.toNat = nnn.toNat ∧ t.pc = s.pc + 2 ∧ t.wait = false ∧
      OnlyChanges [.i, .pc, .wait] s t

/-- ADD I, Vx (R141); that it wraps modulo 65536 with no flag and no fault is the spec's decision D5. -/
def Obligations.AddIWrapsAt16Bits : Prop :=
  ∀ (x : RegIdx) (s : State), decodeWord (wordXkk 0xF x 0x1E) = some (.addI x) ∧
    ∃ t, exec (.addI x) s = .next t ∧ t.i.toNat = (s.i.toNat + (getV s x).toNat) % 65536 ∧
      t.pc = s.pc + 2 ∧ t.wait = false ∧ OnlyChanges [.i, .pc, .wait] s t

/-- R142: LD F, Vx: I = 5·Vx for a digit, InvalidGlyphIndex above 15. -/
def Obligations.LdFPointsAtGlyph : Prop :=
  ∀ (x : RegIdx) (s : State), decodeWord (wordXkk 0xF x 0x29) = some (.ldF x) ∧
    (15 < (getV s x).toNat → exec (.ldF x) s = .fault (.invalidGlyphIndex (getV s x))) ∧
    ((getV s x).toNat ≤ 15 → ∃ t, exec (.ldF x) s = .next t ∧ t.i.toNat = (getV s x).toNat * 5 ∧
      t.pc = s.pc + 2 ∧ t.wait = false ∧ OnlyChanges [.i, .pc, .wait] s t)

/-- LD B, Vx: hundreds, tens and ones of Vx at I, I + 1, I + 2, every other byte kept (R143); MemoryOutOfRange when I + 2
exceeds 4095, the spec's decision D4. -/
def Obligations.LdBStoresDigits : Prop :=
  ∀ (x : RegIdx) (s : State), decodeWord (wordXkk 0xF x 0x33) = some (.ldB x) ∧
    (4095 < s.i.toNat + 2 →
      exec (.ldB x) s = .fault (.memoryOutOfRange (BitVec.ofNat 16 (max s.i.toNat 4096)))) ∧
    (s.i.toNat + 2 ≤ 4095 → ∃ t, exec (.ldB x) s = .next t ∧
      (Memory.read t.mem s.i.toNat).toNat = (getV s x).toNat / 100 ∧
      (Memory.read t.mem (s.i.toNat + 1)).toNat = (getV s x).toNat / 10 % 10 ∧
      (Memory.read t.mem (s.i.toNat + 2)).toNat = (getV s x).toNat % 10 ∧
      (∀ a, a < s.i.toNat ∨ s.i.toNat + 2 < a → Memory.read t.mem a = Memory.read s.mem a) ∧
      t.pc = s.pc + 2 ∧ t.wait = false ∧ OnlyChanges [.mem, .pc, .wait] s t)

/-- LD [I], Vx: V0 to Vx at I to I + x, every other byte kept (R144); that I is unchanged is the spec's decision D12, that
it faults MemoryOutOfRange when I + x exceeds 4095 its decision D4. -/
def Obligations.LdMemStoresBlock : Prop :=
  ∀ (x : RegIdx) (s : State), decodeWord (wordXkk 0xF x 0x55) = some (.ldMem x) ∧
    (4095 < s.i.toNat + x.toNat →
      exec (.ldMem x) s = .fault (.memoryOutOfRange (BitVec.ofNat 16 (max s.i.toNat 4096)))) ∧
    (s.i.toNat + x.toNat ≤ 4095 → ∃ t, exec (.ldMem x) s = .next t ∧
      (∀ k : RegIdx, k.toNat ≤ x.toNat → Memory.read t.mem (s.i.toNat + k.toNat) = getV s k) ∧
      (∀ a, a < s.i.toNat ∨ s.i.toNat + x.toNat < a → Memory.read t.mem a = Memory.read s.mem a) ∧
      t.pc = s.pc + 2 ∧ t.wait = false ∧ OnlyChanges [.mem, .pc, .wait] s t)

/-- LD Vx, [I]: V0 to Vx from I to I + x, every other register kept (R145); that I is unchanged is the spec's decision D12,
that it faults MemoryOutOfRange when I + x exceeds 4095 its decision D4. -/
def Obligations.LdVxMemLoadsBlock : Prop :=
  ∀ (x : RegIdx) (s : State), decodeWord (wordXkk 0xF x 0x65) = some (.ldVxMem x) ∧
    (4095 < s.i.toNat + x.toNat →
      exec (.ldVxMem x) s = .fault (.memoryOutOfRange (BitVec.ofNat 16 (max s.i.toNat 4096)))) ∧
    (s.i.toNat + x.toNat ≤ 4095 → ∃ t, exec (.ldVxMem x) s = .next t ∧
      (∀ k : RegIdx, k.toNat ≤ x.toNat → getV t k = Memory.read s.mem (s.i.toNat + k.toNat)) ∧
      (∀ k : RegIdx, x.toNat < k.toNat → getV t k = getV s k) ∧
      t.pc = s.pc + 2 ∧ t.wait = false ∧ OnlyChanges [.v, .pc, .wait] s t)

/-! ### Display (45_display.md) -/

/-- R150: CLS leaves every pixel 0 and changes nothing else but PC and WAIT. -/
def Obligations.ClsClearsEveryPixel : Prop :=
  decodeWord 0x00E0#16 = some .cls ∧
  ∀ s : State, ∃ t, exec .cls s = .next t ∧
    (∀ row col, row < 32 → col < 64 → pixel t.fb row col = false) ∧
    t.pc = s.pc + 2 ∧ t.wait = false ∧ OnlyChanges [.fb, .pc, .wait] s t

/-- DRW toggles exactly the pixels that 1 bits of the sprite fall on, and VF = 1 iff one of them was set (R151, R155);
MemoryOutOfRange for a non-empty sprite that runs past 4095, the spec's decision D4. The axes, the bit order and the
empty sprite are its decision D13; the coordinates are those before VF is written, decision D10. -/
def Obligations.DrwTogglesSpriteBits : Prop :=
  ∀ (x y : RegIdx) (n : Nibble) (s : State), decodeWord (wordXyn 0xD x y n) = some (.drw x y n) ∧
    (0 < n.toNat ∧ 4095 < s.i.toNat + n.toNat - 1 →
      exec (.drw x y n) s = .fault (.memoryOutOfRange (BitVec.ofNat 16 (max s.i.toNat 4096)))) ∧
    (n.toNat = 0 ∨ s.i.toNat + n.toNat - 1 ≤ 4095 → ∃ t, exec (.drw x y n) s = .next t ∧
      (∀ row col, row < 32 → col < 64 →
        (SpriteBitAt s x y n row col → pixel t.fb row col = !pixel s.fb row col) ∧
        (¬ SpriteBitAt s x y n row col → pixel t.fb row col = pixel s.fb row col)) ∧
      (SpriteCollides s x y n → getV t VF = 1) ∧ (¬ SpriteCollides s x y n → getV t VF = 0) ∧
      (∀ r, r ≠ VF → getV t r = getV s r) ∧
      t.pc = s.pc + 2 ∧ t.wait = false ∧ OnlyChanges [.fb, .v, .pc, .wait] s t)

/-- R158, which the spec marks as derived: two draws of the same sprite at the same coordinates (neither of them VF,
which the first draw overwrites) restore the framebuffer; the first VF reports hits on set pixels, the second hits on pixels that were clear before the
first. -/
def Obligations.DrawTwiceRestoresFramebuffer : Prop :=
  ∀ (x y : RegIdx) (n : Nibble) (s t : State), x ≠ VF → y ≠ VF → exec (.drw x y n) s = .next t →
    ∃ u, exec (.drw x y n) t = .next u ∧ u.fb = s.fb ∧
      (getV t VF = 1 ↔ SpriteCollides s x y n) ∧ (getV u VF = 1 ↔ SpriteHitsClear s x y n)

/-! ### Keypad and timers (46_keypad_timers.md) -/

/-- SKP Vx: skip iff key Vx is down (R160); that an index above 15 faults InvalidKeyIndex is the spec's decision D8. -/
def Obligations.SkpSkipsOnKeyDown : Prop :=
  ∀ (x : RegIdx) (s : State), decodeWord (wordXkk 0xE x 0x9E) = some (.skp x) ∧
    (15 < (getV s x).toNat → exec (.skp x) s = .fault (.invalidKeyIndex (getV s x))) ∧
    (∀ k : Fin 16, (getV s x).toNat = k.val → ∃ t, exec (.skp x) s = .next t ∧
      (s.key[k] = true → t.pc = s.pc + 4) ∧ (s.key[k] = false → t.pc = s.pc + 2) ∧ t.wait = false ∧
      OnlyChanges [.pc, .wait] s t)

/-- SKNP Vx: skip iff key Vx is up (R161); that an index above 15 faults InvalidKeyIndex is the spec's decision D8. -/
def Obligations.SknpSkipsOnKeyUp : Prop :=
  ∀ (x : RegIdx) (s : State), decodeWord (wordXkk 0xE x 0xA1) = some (.sknp x) ∧
    (15 < (getV s x).toNat → exec (.sknp x) s = .fault (.invalidKeyIndex (getV s x))) ∧
    (∀ k : Fin 16, (getV s x).toNat = k.val → ∃ t, exec (.sknp x) s = .next t ∧
      (s.key[k] = false → t.pc = s.pc + 4) ∧ (s.key[k] = true → t.pc = s.pc + 2) ∧ t.wait = false ∧
      OnlyChanges [.pc, .wait] s t)

/-- R162: LD Vx, K: with every key up only WAIT changes; else Vx is the least index that is down and WAIT is 0. -/
def Obligations.LdVxKWaitsOrLoads : Prop :=
  ∀ (x : RegIdx) (s : State), decodeWord (wordXkk 0xF x 0x0A) = some (.ldVxK x) ∧
    ((∀ k : Fin 16, s.key[k] = false) → ∃ t, exec (.ldVxK x) s = .next t ∧ t.wait = true ∧ OnlyChanges [.wait] s t) ∧
    (∀ k : Fin 16, s.key[k] = true → (∀ j : Fin 16, j < k → s.key[j] = false) →
      ∃ t, exec (.ldVxK x) s = .next t ∧ (getV t x).toNat = k.val ∧ (∀ r, r ≠ x → getV t r = getV s r) ∧
        t.pc = s.pc + 2 ∧ t.wait = false ∧ OnlyChanges [.v, .pc, .wait] s t)

/-- LD Vx, DT; DT is not changed (R163). That Fx07 is this one is the spec's decision D18, from general knowledge. -/
def Obligations.LdVxDtReadsDelay : Prop :=
  ∀ (x : RegIdx) (s : State), decodeWord (wordXkk 0xF x 0x07) = some (.ldVxDt x) ∧
    ∃ t, exec (.ldVxDt x) s = .next t ∧ (∀ r, getV t r = if r = x then s.dt else getV s r) ∧
      t.pc = s.pc + 2 ∧ t.wait = false ∧ OnlyChanges [.v, .pc, .wait] s t

/-- LD DT, Vx (R164). That Fx15 is this one is the spec's decision D18, from general knowledge. -/
def Obligations.LdDtVxWritesDelay : Prop :=
  ∀ (x : RegIdx) (s : State), decodeWord (wordXkk 0xF x 0x15) = some (.ldDtVx x) ∧
    ∃ t, exec (.ldDtVx x) s = .next t ∧ t.dt = getV s x ∧ t.pc = s.pc + 2 ∧ t.wait = false ∧
      OnlyChanges [.dt, .pc, .wait] s t

/-- LD ST, Vx (R165). That Fx18 is this one is the spec's decision D18, from general knowledge. -/
def Obligations.LdStVxWritesSound : Prop :=
  ∀ (x : RegIdx) (s : State), decodeWord (wordXkk 0xF x 0x18) = some (.ldStVx x) ∧
    ∃ t, exec (.ldStVx x) s = .next t ∧ t.st = getV s x ∧ t.pc = s.pc + 2 ∧ t.wait = false ∧
      OnlyChanges [.st, .pc, .wait] s t

/-! ### The host's operations (40_step_cycle.md, 60_exceptions.md) -/

/-- R84: tick(N) subtracts N from both timers, floored at zero, and changes nothing else. No instruction but
Fx15 and Fx18 changes a timer; that Fx15 is the one for DT and Fx18 the one for ST is the spec's decision D18, from
general knowledge (log entry 9). -/
def Obligations.TickFloorsAtZero : Prop :=
  ∀ (n : Nat) (s : State),
    ((n ≤ s.dt.toNat → (hostTick n s).dt.toNat = s.dt.toNat - n) ∧ (s.dt.toNat < n → (hostTick n s).dt = 0)) ∧
    ((n ≤ s.st.toNat → (hostTick n s).st.toNat = s.st.toNat - n) ∧ (s.st.toNat < n → (hostTick n s).st = 0)) ∧
    OnlyChanges [.dt, .st] s (hostTick n s) ∧
    (∀ (i : Instr) (t : State), exec i s = .next t →
      (t.dt ≠ s.dt → ∃ x, i = .ldDtVx x) ∧ (t.st ≠ s.st → ∃ x, i = .ldStVx x))

/-- R83: set_keys replaces all 16 keys at once and changes nothing else. -/
def Obligations.SetKeysReplacesAllKeys : Prop :=
  ∀ (keys : Vector Bool 16) (s : State),
    (∀ k : Fin 16, keyDown (hostSetKeys keys s) k.val = keys[k]) ∧ OnlyChanges [.key] s (hostSetKeys keys s)

/-- load copies up to 3584 bytes to 0x200 upward and changes nothing else (R82, R54); that the core rejects a longer
program, and that there is no load after a step, is the spec's decision D17 (log entry 6). -/
def Obligations.LoadCopiesOrRejects : Prop :=
  ∀ (bytes : List Byte) (s : State),
    (3584 < bytes.length → hostLoad bytes s = none ∧
      ∀ f, perform (.load bytes) ⟨s, false, f⟩ = some (.rejected, ⟨s, false, f⟩)) ∧
    (bytes.length ≤ 3584 → ∃ t, hostLoad bytes s = some t ∧
      (∀ (k : Nat) (h : k < bytes.length), Memory.read t.mem (0x200 + k) = bytes[k]) ∧
      (∀ a, a < 0x200 ∨ 0x200 + bytes.length ≤ a → Memory.read t.mem a = Memory.read s.mem a) ∧
      OnlyChanges [.mem] s t ∧ ∀ f, perform (.load bytes) ⟨s, false, f⟩ = some (.accepted, ⟨t, false, f⟩)) ∧
    (∀ f, perform (.load bytes) ⟨s, true, f⟩ = none)

/-- A faulting step leaves the core as it was (R171); that the session records the first fault is the spec's decision D20
(R180; log entry 6). -/
def Obligations.FaultingStepChangesNothing : Prop :=
  ∀ (x y : Session) (f : Fault), perform .step x = some (.fault f, y) →
    y.core = x.core ∧ (x.firstFault = none → y.firstFault = some f) ∧
    (x.firstFault ≠ none → y.firstFault = x.firstFault)

/-- R180, which the spec marks as derived: after a fault, whatever keys and ticks the host gives, the next step
reports the same fault again. -/
def Obligations.FaultRepeatsForEver : Prop :=
  ∀ (s : State) (f : Fault) (keys : Vector Bool 16) (n : Nat), step s = .fault f →
    step (hostTick n (hostSetKeys keys s)) = .fault f

/-- reset() as an operation of a session (R80, R81): from every session it answers, the core has its reset values, no step
has been made since and no fault is on record. The record is the session's, the spec's decision D20 (log entry 6); the
model's own counter of draws goes on (log entry 3). -/
def Obligations.ResetStartsASession : Prop :=
  ∀ x : Session, ∃ y, perform .reset x = some (.done, y) ∧
    (∀ p : Part, p ≠ .draws → Same p State.reset y.core) ∧ y.core.draws = x.core.draws ∧
    y.stepped = false ∧ y.firstFault = none
end

