-- ==== Sys2Proof/Laws/Decode.lean ====
section
/-! SUPPORT. The fields of a word put together from its fields (30_encoding.md R62, R63), and every instruction's operands
fit. -/

namespace Sys2Proof

/-! ### Operands fit -/

@[simp] theorem fits_x (x : RegIdx) : OpField.fits .x x.toNat = true := decide_eq_true x.isLt
@[simp] theorem fits_y (y : RegIdx) : OpField.fits .y y.toNat = true := decide_eq_true y.isLt
@[simp] theorem fits_n (n : Nibble) : OpField.fits .n n.toNat = true := decide_eq_true n.isLt
@[simp] theorem fits_kk (kk : Byte) : OpField.fits .kk kk.toNat = true := decide_eq_true kk.isLt
@[simp] theorem fits_nnn (nnn : Addr12) : OpField.fits .nnn nnn.toNat = true := decide_eq_true nnn.isLt

/-- Every term of Instr is well formed: the operand types have the widths of the fields. -/
@[simp] theorem wellFormed_all (i : Instr) : WellFormed i = true := by
  cases i <;> simp [WellFormed, operandsFit, Instr.operands]

/-! ### The bits of a word put together -/

theorem getLsbD_wordNnn (o : Nibble) (a : Addr12) (i : Nat) :
    (wordNnn o a).getLsbD i = if i < 12 then a.getLsbD i else o.getLsbD (i - 12) :=
  BitVec.getLsbD_append (x := o) (y := a) (i := i)

theorem getLsbD_wordXkk (o : Nibble) (x : RegIdx) (kk : Byte) (i : Nat) :
    (wordXkk o x kk).getLsbD i =
      if i < 8 then kk.getLsbD i else if i - 8 < 4 then x.getLsbD (i - 8) else o.getLsbD (i - 8 - 4) := by
  rw [← BitVec.getLsbD_append]
  exact BitVec.getLsbD_append (x := o ++ x) (y := kk) (i := i)

theorem getLsbD_wordXyn (o : Nibble) (x y : RegIdx) (n : Nibble) (i : Nat) :
    (wordXyn o x y n).getLsbD i =
      if i < 4 then n.getLsbD i
      else if i - 4 < 4 then y.getLsbD (i - 4)
      else if i - 4 - 4 < 4 then x.getLsbD (i - 4 - 4) else o.getLsbD (i - 4 - 4 - 4) := by
  rw [← BitVec.getLsbD_append, ← BitVec.getLsbD_append]
  exact BitVec.getLsbD_append (x := o ++ x ++ y) (y := n) (i := i)

theorem getLsbD_wordOfBytes (hi lo : Byte) (i : Nat) :
    (wordOfBytes hi lo).getLsbD i = if i < 8 then lo.getLsbD i else hi.getLsbD (i - 8) :=
  BitVec.getLsbD_append (x := hi) (y := lo) (i := i)

/-! ### Format NNN -/

@[simp] theorem opOf_wordNnn (o : Nibble) (a : Addr12) : opOf (wordNnn o a) = o := by
  apply BitVec.eq_of_getLsbD_eq; intro i hi
  simp [opOf, getLsbD_wordNnn, hi]

@[simp] theorem nnnOf_wordNnn (o : Nibble) (a : Addr12) : nnnOf (wordNnn o a) = a := by
  apply BitVec.eq_of_getLsbD_eq; intro i hi
  simp [nnnOf, getLsbD_wordNnn, hi]

/-! ### Formats XKK and X -/

@[simp] theorem opOf_wordXkk (o : Nibble) (x : RegIdx) (kk : Byte) : opOf (wordXkk o x kk) = o := by
  apply BitVec.eq_of_getLsbD_eq; intro i hi
  simp [opOf, getLsbD_wordXkk, hi, show ¬ 12 + i < 8 by omega,
    show ¬ 12 + i - 8 < 4 by omega, show 12 + i - 8 - 4 = i by omega]

@[simp] theorem xOf_wordXkk (o : Nibble) (x : RegIdx) (kk : Byte) : xOf (wordXkk o x kk) = x := by
  apply BitVec.eq_of_getLsbD_eq; intro i hi
  simp [xOf, getLsbD_wordXkk, hi]

@[simp] theorem kkOf_wordXkk (o : Nibble) (x : RegIdx) (kk : Byte) : kkOf (wordXkk o x kk) = kk := by
  apply BitVec.eq_of_getLsbD_eq; intro i hi
  simp [kkOf, getLsbD_wordXkk, hi]

/-! ### Formats XY and XYN -/

@[simp] theorem opOf_wordXyn (o : Nibble) (x y : RegIdx) (n : Nibble) : opOf (wordXyn o x y n) = o := by
  apply BitVec.eq_of_getLsbD_eq; intro i hi
  simp [opOf, getLsbD_wordXyn, hi, show ¬ 12 + i < 4 by omega,
    show ¬ 12 + i - 4 < 4 by omega, show ¬ 12 + i - 4 - 4 < 4 by omega, show 12 + i - 4 - 4 - 4 = i by omega]

@[simp] theorem xOf_wordXyn (o : Nibble) (x y : RegIdx) (n : Nibble) : xOf (wordXyn o x y n) = x := by
  apply BitVec.eq_of_getLsbD_eq; intro i hi
  simp [xOf, getLsbD_wordXyn, hi, show ¬ 8 + i < 4 by omega,
    show ¬ 8 + i - 4 < 4 by omega, show 8 + i - 4 - 4 = i by omega]

@[simp] theorem yOf_wordXyn (o : Nibble) (x y : RegIdx) (n : Nibble) : yOf (wordXyn o x y n) = y := by
  apply BitVec.eq_of_getLsbD_eq; intro i hi
  simp [yOf, getLsbD_wordXyn, hi]

@[simp] theorem nOf_wordXyn (o : Nibble) (x y : RegIdx) (n : Nibble) : nOf (wordXyn o x y n) = n := by
  apply BitVec.eq_of_getLsbD_eq; intro i hi
  simp [nOf, getLsbD_wordXyn, hi]

/-! ### Masks (R66) -/

theorem wordNnn_and (o o' : Nibble) (a a' : Addr12) :
    wordNnn o a &&& wordNnn o' a' = wordNnn (o &&& o') (a &&& a') := by
  apply BitVec.eq_of_getLsbD_eq; intro i hi
  rw [BitVec.getLsbD_and]
  simp only [getLsbD_wordNnn]
  split <;> simp

theorem wordXkk_and (o o' : Nibble) (x x' : RegIdx) (k k' : Byte) :
    wordXkk o x k &&& wordXkk o' x' k' = wordXkk (o &&& o') (x &&& x') (k &&& k') := by
  apply BitVec.eq_of_getLsbD_eq; intro i hi
  rw [BitVec.getLsbD_and]
  simp only [getLsbD_wordXkk]
  split
  · simp
  · split <;> simp

theorem wordXyn_and (o o' : Nibble) (x x' y y' : RegIdx) (n n' : Nibble) :
    wordXyn o x y n &&& wordXyn o' x' y' n' = wordXyn (o &&& o') (x &&& x') (y &&& y') (n &&& n') := by
  apply BitVec.eq_of_getLsbD_eq; intro i hi
  rw [BitVec.getLsbD_and]
  simp only [getLsbD_wordXyn]
  split
  · simp
  · split
    · simp
    · split <;> simp

@[simp] theorem nibble_and_F (o : Nibble) : o &&& 0xF#4 = o := BitVec.and_allOnes (x := o)
@[simp] theorem byte_and_FF (k : Byte) : k &&& 0xFF#8 = k := BitVec.and_allOnes (x := k)

/-- Mask F000 on format NNN keeps the family. -/
theorem wordNnn_mask (o : Nibble) (a : Addr12) : wordNnn o a &&& 0xF000#16 = wordNnn o 0 := by
  rw [show (0xF000#16 : Word) = wordNnn 0xF 0 by decide, wordNnn_and]; simp

/-- Mask F000 on format XKK keeps the family. -/
theorem wordXkk_mask (o : Nibble) (x : RegIdx) (k : Byte) : wordXkk o x k &&& 0xF000#16 = wordXkk o 0 0 := by
  rw [show (0xF000#16 : Word) = wordXkk 0xF 0 0 by decide, wordXkk_and]; simp

/-- Mask F0FF on format X keeps the family and the low byte. -/
theorem wordXkk_mask_kk (o : Nibble) (x : RegIdx) (k : Byte) : wordXkk o x k &&& 0xF0FF#16 = wordXkk o 0 k := by
  rw [show (0xF0FF#16 : Word) = wordXkk 0xF 0 0xFF by decide, wordXkk_and]; simp

/-- Mask F00F on format XY keeps the family and the low nibble. -/
theorem wordXyn_mask_n (o : Nibble) (x y : RegIdx) (n : Nibble) :
    wordXyn o x y n &&& 0xF00F#16 = wordXyn o 0 0 n := by
  rw [show (0xF00F#16 : Word) = wordXyn 0xF 0 0 0xF by decide, wordXyn_and]; simp

/-- Mask F000 on format XYN keeps the family. -/
theorem wordXyn_mask (o : Nibble) (x y : RegIdx) (n : Nibble) :
    wordXyn o x y n &&& 0xF000#16 = wordXyn o 0 0 0 := by
  rw [show (0xF000#16 : Word) = wordXyn 0xF 0 0 0 by decide, wordXyn_and]; simp

/-! ### The sixteen families -/

/-- A nibble is one of its sixteen values: the case split on the family or on the sub-opcode of family 8. -/
theorem nibble_cases (o : Nibble) :
    o = 0x0#4 ∨ o = 0x1#4 ∨ o = 0x2#4 ∨ o = 0x3#4 ∨ o = 0x4#4 ∨ o = 0x5#4 ∨ o = 0x6#4 ∨ o = 0x7#4 ∨
    o = 0x8#4 ∨ o = 0x9#4 ∨ o = 0xA#4 ∨ o = 0xB#4 ∨ o = 0xC#4 ∨ o = 0xD#4 ∨ o = 0xE#4 ∨ o = 0xF#4 := by
  revert o; decide

/-! ### Words from their fields -/

/-- A word is its family nibble and its low 12 bits. -/
theorem wordNnn_fields (w : Word) : wordNnn (opOf w) (nnnOf w) = w := by
  apply BitVec.eq_of_getLsbD_eq; intro i hi
  by_cases h : i < 12
  · simp [getLsbD_wordNnn, opOf, nnnOf, h]
  · simp [getLsbD_wordNnn, opOf, nnnOf, h, show i - 12 < 4 by omega, show 12 + (i - 12) = i by omega]

/-- A word is its family nibble, its x and its low byte. -/
theorem wordXkk_fields (w : Word) : wordXkk (opOf w) (xOf w) (kkOf w) = w := by
  apply BitVec.eq_of_getLsbD_eq; intro i hi
  by_cases h : i < 8
  · simp [getLsbD_wordXkk, opOf, xOf, kkOf, h]
  · by_cases h' : i - 8 < 4
    · simp [getLsbD_wordXkk, opOf, xOf, kkOf, h, h', show 8 + (i - 8) = i by omega]
    · simp [getLsbD_wordXkk, opOf, xOf, kkOf, h, h', show i - 8 - 4 < 4 by omega,
        show 12 + (i - 8 - 4) = i by omega]

/-- A word is its four nibbles. -/
theorem wordXyn_fields (w : Word) : wordXyn (opOf w) (xOf w) (yOf w) (nOf w) = w := by
  apply BitVec.eq_of_getLsbD_eq; intro i hi
  by_cases h : i < 4
  · simp [getLsbD_wordXyn, opOf, xOf, yOf, nOf, h]
  · by_cases h' : i - 4 < 4
    · simp [getLsbD_wordXyn, opOf, xOf, yOf, nOf, h, h', show 4 + (i - 4) = i by omega]
    · by_cases h'' : i - 4 - 4 < 4
      · simp [getLsbD_wordXyn, opOf, xOf, yOf, nOf, h, h', h'', show 8 + (i - 4 - 4) = i by omega]
      · simp [getLsbD_wordXyn, opOf, xOf, yOf, nOf, h, h', h'', show i - 4 - 4 - 4 < 4 by omega,
          show 12 + (i - 4 - 4 - 4) = i by omega]

/-- The two bytes of a word put together again (R43). -/
@[simp] theorem wordOfBytes_bytes (w : Word) : wordOfBytes (hiByte w) (loByte w) = w := by
  apply BitVec.eq_of_getLsbD_eq; intro i hi
  by_cases h : i < 8
  · simp [getLsbD_wordOfBytes, loByte, hiByte, h]
  · simp [getLsbD_wordOfBytes, loByte, hiByte, h, show i - 8 < 8 by omega, show 8 + (i - 8) = i by omega]

end Sys2Proof
end

