-- ==== Sys2Proof/Laws/Memory.lean ====
section
/-! SUPPORT. What the memory operations do: read after write, every other byte kept, the canonical form kept. -/

namespace Sys2Proof.Machine

@[simp] theorem Memory.read_nil (a : Nat) : Memory.read [] a = resetByte a := rfl

theorem Memory.read_erase (m : Memory) (a b : Nat) :
    Memory.read (Memory.erase m a) b = if b = a then resetByte a else Memory.read m b := by
  induction m with
  | nil => by_cases h : b = a <;> simp [Memory.erase, h]
  | cons c rest ih =>
    obtain ⟨d, w⟩ := c
    by_cases hd : d = a
    · simp only [Memory.erase, hd, if_true, ih, Memory.read]
      by_cases hb : b = a
      · simp [hb]
      · simp [hb, Ne.symm hb]
    · simp only [Memory.erase, hd, if_false, Memory.read, ih]
      by_cases hb : d = b
      · subst hb; simp [hd]
      · simp [hb]

theorem Memory.mem_erase {m : Memory} {a : Nat} {c : Host.Cell} :
    c ∈ Memory.erase m a ↔ c ∈ m ∧ c.1 ≠ a := by
  induction m with
  | nil => simp [Memory.erase]
  | cons d rest ih =>
    obtain ⟨e, w⟩ := d
    by_cases he : e = a
    · simp only [Memory.erase, he, if_true, ih, List.mem_cons]
      constructor
      · exact fun h => ⟨.inr h.1, h.2⟩
      · rintro ⟨rfl | h, hc⟩
        · exact absurd rfl hc
        · exact ⟨h, hc⟩
    · simp only [Memory.erase, he, if_false, List.mem_cons, ih]
      constructor
      · rintro (rfl | h)
        · exact ⟨.inl rfl, he⟩
        · exact ⟨.inr h.1, h.2⟩
      · rintro ⟨rfl | h, hc⟩
        · exact .inl rfl
        · exact .inr ⟨h, hc⟩

theorem Memory.erase_sorted {m : Memory} (a : Nat) (h : m.Pairwise fun c d => c.1 < d.1) :
    (Memory.erase m a).Pairwise fun c d => c.1 < d.1 := by
  induction m with
  | nil => simp [Memory.erase]
  | cons d rest ih =>
    obtain ⟨e, w⟩ := d
    rw [List.pairwise_cons] at h
    by_cases he : e = a
    · simpa [Memory.erase, he] using ih h.2
    · simp only [Memory.erase, he, if_false, List.pairwise_cons]
      exact ⟨fun c hc => h.1 c (Memory.mem_erase.mp hc).1, ih h.2⟩

theorem Memory.read_insert {m : Memory} {a : Nat} (h : ∀ c ∈ m, c.1 ≠ a) (v : Byte) (b : Nat) :
    Memory.read (Memory.insert m a v) b = if b = a then v else Memory.read m b := by
  induction m with
  | nil =>
    by_cases hb : b = a
    · simp [Memory.insert, Memory.read, hb]
    · simp [Memory.insert, Memory.read, hb, Ne.symm hb]
  | cons d rest ih =>
    obtain ⟨e, w⟩ := d
    have he : e ≠ a := h (e, w) (by simp)
    have ih := ih fun c hc => h c (by simp [hc])
    by_cases hlt : a < e
    · by_cases hb : b = a
      · simp [Memory.insert, hlt, Memory.read, hb]
      · simp [Memory.insert, hlt, Memory.read, hb, Ne.symm hb]
    · simp only [Memory.insert, hlt, if_false, Memory.read, ih]
      by_cases hb : e = b
      · subst hb; simp [he]
      · simp [hb]

theorem Memory.mem_insert {m : Memory} {a : Nat} {v : Byte} {c : Host.Cell} :
    c ∈ Memory.insert m a v ↔ c = (a, v) ∨ c ∈ m := by
  induction m with
  | nil => simp [Memory.insert]
  | cons d rest ih =>
    obtain ⟨e, w⟩ := d
    by_cases hlt : a < e
    · simp [Memory.insert, hlt]
    · simp only [Memory.insert, hlt, if_false, List.mem_cons, ih]
      tauto

theorem Memory.insert_sorted {m : Memory} {a : Nat} (v : Byte) (hne : ∀ c ∈ m, c.1 ≠ a)
    (h : m.Pairwise fun c d => c.1 < d.1) : (Memory.insert m a v).Pairwise fun c d => c.1 < d.1 := by
  induction m with
  | nil => simp [Memory.insert]
  | cons d rest ih =>
    obtain ⟨e, w⟩ := d
    have he : e ≠ a := hne (e, w) (by simp)
    by_cases hlt : a < e
    · simp only [Memory.insert, hlt, if_true, List.pairwise_cons]
      refine ⟨fun c hc => ?_, List.pairwise_cons.mp h⟩
      rcases List.mem_cons.mp hc with rfl | hc
      · exact hlt
      · exact hlt.trans ((List.pairwise_cons.mp h).1 c hc)
    · simp only [Memory.insert, hlt, if_false, List.pairwise_cons]
      refine ⟨fun c hc => ?_, ih (fun c hc => hne c (by simp [hc])) (List.pairwise_cons.mp h).2⟩
      rcases Memory.mem_insert.mp hc with rfl | hc
      · show e < a; omega
      · exact (List.pairwise_cons.mp h).1 c hc

/-- Reading after a write: the byte written at its address, the old byte at every other (R46, R51). It holds of every
list, canonical or not. -/
theorem Memory.read_write (m : Memory) (a b : Nat) (v : Byte) :
    Memory.read (Memory.write m a v) b = if b = a then v else Memory.read m b := by
  unfold Memory.write
  split
  · next hv => rw [Memory.read_erase, hv]
  · rw [Memory.read_insert fun c hc => (Memory.mem_erase.mp hc).2, Memory.read_erase]
    by_cases hb : b = a <;> simp [hb]

/-- A write inside memory keeps the canonical form. -/
theorem Memory.write_wf {m : Memory} {a : Nat} (v : Byte) (h : Memory.wf m) (ha : a < Config.memSize) :
    Memory.wf (Memory.write m a v) := by
  unfold Memory.write
  split
  · exact ⟨Memory.erase_sorted a h.1, fun c hc => h.2 c (Memory.mem_erase.mp hc).1⟩
  · next hv =>
    refine ⟨Memory.insert_sorted v (fun c hc => (Memory.mem_erase.mp hc).2) (Memory.erase_sorted a h.1), ?_⟩
    intro c hc
    rcases Memory.mem_insert.mp hc with rfl | hc
    · exact ⟨ha, hv⟩
    · exact h.2 c (Memory.mem_erase.mp hc).1

/-- Reading after a block store: the k-th byte at `base + k`, the old byte outside the block. -/
theorem Memory.read_writeBytes (m : Memory) (base : Nat) (bs : List Byte) (a : Nat) :
    Memory.read (Memory.writeBytes m base bs) a =
      if h : base ≤ a ∧ a < base + bs.length then bs[a - base] else Memory.read m a := by
  induction bs generalizing m base with
  | nil => simp [Memory.writeBytes, show ¬ (base ≤ a ∧ a < base) by omega]
  | cons b bs ih =>
    rw [Memory.writeBytes, ih]
    by_cases h : base + 1 ≤ a ∧ a < base + 1 + bs.length
    · have hs : a - base = (a - (base + 1)) + 1 := by omega
      rw [dif_pos h, dif_pos (by simp only [List.length_cons]; omega)]
      simp only [hs, List.getElem_cons_succ]
    · rw [dif_neg h, Memory.read_write]
      by_cases hb : a = base
      · subst hb; simp
      · rw [if_neg hb, dif_neg (by simp only [List.length_cons]; omega)]

/-- A block store inside memory keeps the canonical form. -/
theorem Memory.writeBytes_wf {m : Memory} {base : Nat} (bs : List Byte) (h : Memory.wf m)
    (hb : base + bs.length ≤ Config.memSize) : Memory.wf (Memory.writeBytes m base bs) := by
  induction bs generalizing m base with
  | nil => exact h
  | cons b bs ih =>
    simp only [List.length_cons] at hb
    exact ih (Memory.write_wf b h (by omega)) (by omega)

@[simp] theorem Memory.readBytes_length (m : Memory) (base len : Nat) :
    (Memory.readBytes m base len).length = len := by simp [Memory.readBytes]

@[simp] theorem Memory.readBytes_getElem (m : Memory) (base len k : Nat)
    (h : k < (Memory.readBytes m base len).length) :
    (Memory.readBytes m base len)[k] = Memory.read m (base + k) := by simp [Memory.readBytes]

/-- Reset memory is in canonical form. -/
theorem reset_mem_wf : Memory.wf State.reset.mem :=
  ⟨List.Pairwise.nil, fun _ hc => absurd hc List.not_mem_nil⟩

end Sys2Proof.Machine
end

