-- ==== Sys2Proof/Laws/State.lean ====
section
/-! SUPPORT. One lemma per field per update of State, so that no later proof unfolds a record update. -/

namespace Sys2Proof.Machine

variable (s : State)

/-! ### setV -/

@[simp] theorem setV_v (r : RegIdx) (b : Byte) : (setV r b s).v = s.v.set r.toNat b r.isLt := rfl
@[simp] theorem setV_i (r : RegIdx) (b : Byte) : (setV r b s).i = s.i := rfl
@[simp] theorem setV_pc (r : RegIdx) (b : Byte) : (setV r b s).pc = s.pc := rfl
@[simp] theorem setV_sp (r : RegIdx) (b : Byte) : (setV r b s).sp = s.sp := rfl
@[simp] theorem setV_stack (r : RegIdx) (b : Byte) : (setV r b s).stack = s.stack := rfl
@[simp] theorem setV_dt (r : RegIdx) (b : Byte) : (setV r b s).dt = s.dt := rfl
@[simp] theorem setV_st (r : RegIdx) (b : Byte) : (setV r b s).st = s.st := rfl
@[simp] theorem setV_key (r : RegIdx) (b : Byte) : (setV r b s).key = s.key := rfl
@[simp] theorem setV_fb (r : RegIdx) (b : Byte) : (setV r b s).fb = s.fb := rfl
@[simp] theorem setV_mem (r : RegIdx) (b : Byte) : (setV r b s).mem = s.mem := rfl
@[simp] theorem setV_wait (r : RegIdx) (b : Byte) : (setV r b s).wait = s.wait := rfl
@[simp] theorem setV_draws (r : RegIdx) (b : Byte) : (setV r b s).draws = s.draws := rfl

/-! ### setI -/

@[simp] theorem setI_v (w : Word) : (setI w s).v = s.v := rfl
@[simp] theorem setI_i (w : Word) : (setI w s).i = w := rfl
@[simp] theorem setI_pc (w : Word) : (setI w s).pc = s.pc := rfl
@[simp] theorem setI_sp (w : Word) : (setI w s).sp = s.sp := rfl
@[simp] theorem setI_stack (w : Word) : (setI w s).stack = s.stack := rfl
@[simp] theorem setI_dt (w : Word) : (setI w s).dt = s.dt := rfl
@[simp] theorem setI_st (w : Word) : (setI w s).st = s.st := rfl
@[simp] theorem setI_key (w : Word) : (setI w s).key = s.key := rfl
@[simp] theorem setI_fb (w : Word) : (setI w s).fb = s.fb := rfl
@[simp] theorem setI_mem (w : Word) : (setI w s).mem = s.mem := rfl
@[simp] theorem setI_wait (w : Word) : (setI w s).wait = s.wait := rfl
@[simp] theorem setI_draws (w : Word) : (setI w s).draws = s.draws := rfl

/-! ### setDt -/

@[simp] theorem setDt_v (b : Byte) : (setDt b s).v = s.v := rfl
@[simp] theorem setDt_i (b : Byte) : (setDt b s).i = s.i := rfl
@[simp] theorem setDt_pc (b : Byte) : (setDt b s).pc = s.pc := rfl
@[simp] theorem setDt_sp (b : Byte) : (setDt b s).sp = s.sp := rfl
@[simp] theorem setDt_stack (b : Byte) : (setDt b s).stack = s.stack := rfl
@[simp] theorem setDt_dt (b : Byte) : (setDt b s).dt = b := rfl
@[simp] theorem setDt_st (b : Byte) : (setDt b s).st = s.st := rfl
@[simp] theorem setDt_key (b : Byte) : (setDt b s).key = s.key := rfl
@[simp] theorem setDt_fb (b : Byte) : (setDt b s).fb = s.fb := rfl
@[simp] theorem setDt_mem (b : Byte) : (setDt b s).mem = s.mem := rfl
@[simp] theorem setDt_wait (b : Byte) : (setDt b s).wait = s.wait := rfl
@[simp] theorem setDt_draws (b : Byte) : (setDt b s).draws = s.draws := rfl

/-! ### setSt -/

@[simp] theorem setSt_v (b : Byte) : (setSt b s).v = s.v := rfl
@[simp] theorem setSt_i (b : Byte) : (setSt b s).i = s.i := rfl
@[simp] theorem setSt_pc (b : Byte) : (setSt b s).pc = s.pc := rfl
@[simp] theorem setSt_sp (b : Byte) : (setSt b s).sp = s.sp := rfl
@[simp] theorem setSt_stack (b : Byte) : (setSt b s).stack = s.stack := rfl
@[simp] theorem setSt_dt (b : Byte) : (setSt b s).dt = s.dt := rfl
@[simp] theorem setSt_st (b : Byte) : (setSt b s).st = b := rfl
@[simp] theorem setSt_key (b : Byte) : (setSt b s).key = s.key := rfl
@[simp] theorem setSt_fb (b : Byte) : (setSt b s).fb = s.fb := rfl
@[simp] theorem setSt_mem (b : Byte) : (setSt b s).mem = s.mem := rfl
@[simp] theorem setSt_wait (b : Byte) : (setSt b s).wait = s.wait := rfl
@[simp] theorem setSt_draws (b : Byte) : (setSt b s).draws = s.draws := rfl

/-! ### setKey -/

@[simp] theorem setKey_v (k : Vector Bool 16) : (setKey k s).v = s.v := rfl
@[simp] theorem setKey_i (k : Vector Bool 16) : (setKey k s).i = s.i := rfl
@[simp] theorem setKey_pc (k : Vector Bool 16) : (setKey k s).pc = s.pc := rfl
@[simp] theorem setKey_sp (k : Vector Bool 16) : (setKey k s).sp = s.sp := rfl
@[simp] theorem setKey_stack (k : Vector Bool 16) : (setKey k s).stack = s.stack := rfl
@[simp] theorem setKey_dt (k : Vector Bool 16) : (setKey k s).dt = s.dt := rfl
@[simp] theorem setKey_st (k : Vector Bool 16) : (setKey k s).st = s.st := rfl
@[simp] theorem setKey_key (k : Vector Bool 16) : (setKey k s).key = k := rfl
@[simp] theorem setKey_fb (k : Vector Bool 16) : (setKey k s).fb = s.fb := rfl
@[simp] theorem setKey_mem (k : Vector Bool 16) : (setKey k s).mem = s.mem := rfl
@[simp] theorem setKey_wait (k : Vector Bool 16) : (setKey k s).wait = s.wait := rfl
@[simp] theorem setKey_draws (k : Vector Bool 16) : (setKey k s).draws = s.draws := rfl

/-! ### setFb -/

@[simp] theorem setFb_v (fb : Framebuffer) : (setFb fb s).v = s.v := rfl
@[simp] theorem setFb_i (fb : Framebuffer) : (setFb fb s).i = s.i := rfl
@[simp] theorem setFb_pc (fb : Framebuffer) : (setFb fb s).pc = s.pc := rfl
@[simp] theorem setFb_sp (fb : Framebuffer) : (setFb fb s).sp = s.sp := rfl
@[simp] theorem setFb_stack (fb : Framebuffer) : (setFb fb s).stack = s.stack := rfl
@[simp] theorem setFb_dt (fb : Framebuffer) : (setFb fb s).dt = s.dt := rfl
@[simp] theorem setFb_st (fb : Framebuffer) : (setFb fb s).st = s.st := rfl
@[simp] theorem setFb_key (fb : Framebuffer) : (setFb fb s).key = s.key := rfl
@[simp] theorem setFb_fb (fb : Framebuffer) : (setFb fb s).fb = fb := rfl
@[simp] theorem setFb_mem (fb : Framebuffer) : (setFb fb s).mem = s.mem := rfl
@[simp] theorem setFb_wait (fb : Framebuffer) : (setFb fb s).wait = s.wait := rfl
@[simp] theorem setFb_draws (fb : Framebuffer) : (setFb fb s).draws = s.draws := rfl

/-! ### setMem -/

@[simp] theorem setMem_v (m : Memory) : (setMem m s).v = s.v := rfl
@[simp] theorem setMem_i (m : Memory) : (setMem m s).i = s.i := rfl
@[simp] theorem setMem_pc (m : Memory) : (setMem m s).pc = s.pc := rfl
@[simp] theorem setMem_sp (m : Memory) : (setMem m s).sp = s.sp := rfl
@[simp] theorem setMem_stack (m : Memory) : (setMem m s).stack = s.stack := rfl
@[simp] theorem setMem_dt (m : Memory) : (setMem m s).dt = s.dt := rfl
@[simp] theorem setMem_st (m : Memory) : (setMem m s).st = s.st := rfl
@[simp] theorem setMem_key (m : Memory) : (setMem m s).key = s.key := rfl
@[simp] theorem setMem_fb (m : Memory) : (setMem m s).fb = s.fb := rfl
@[simp] theorem setMem_mem (m : Memory) : (setMem m s).mem = m := rfl
@[simp] theorem setMem_wait (m : Memory) : (setMem m s).wait = s.wait := rfl
@[simp] theorem setMem_draws (m : Memory) : (setMem m s).draws = s.draws := rfl

/-! ### setStack -/

@[simp] theorem setStack_v (sp : Fin 17) (stack : Vector Word 16) : (setStack sp stack s).v = s.v := rfl
@[simp] theorem setStack_i (sp : Fin 17) (stack : Vector Word 16) : (setStack sp stack s).i = s.i := rfl
@[simp] theorem setStack_pc (sp : Fin 17) (stack : Vector Word 16) : (setStack sp stack s).pc = s.pc := rfl
@[simp] theorem setStack_sp (sp : Fin 17) (stack : Vector Word 16) : (setStack sp stack s).sp = sp := rfl
@[simp] theorem setStack_stack (sp : Fin 17) (stack : Vector Word 16) : (setStack sp stack s).stack = stack := rfl
@[simp] theorem setStack_dt (sp : Fin 17) (stack : Vector Word 16) : (setStack sp stack s).dt = s.dt := rfl
@[simp] theorem setStack_st (sp : Fin 17) (stack : Vector Word 16) : (setStack sp stack s).st = s.st := rfl
@[simp] theorem setStack_key (sp : Fin 17) (stack : Vector Word 16) : (setStack sp stack s).key = s.key := rfl
@[simp] theorem setStack_fb (sp : Fin 17) (stack : Vector Word 16) : (setStack sp stack s).fb = s.fb := rfl
@[simp] theorem setStack_mem (sp : Fin 17) (stack : Vector Word 16) : (setStack sp stack s).mem = s.mem := rfl
@[simp] theorem setStack_wait (sp : Fin 17) (stack : Vector Word 16) : (setStack sp stack s).wait = s.wait := rfl
@[simp] theorem setStack_draws (sp : Fin 17) (stack : Vector Word 16) : (setStack sp stack s).draws = s.draws := rfl

/-! ### countDraw -/

@[simp] theorem countDraw_v : (countDraw s).v = s.v := rfl
@[simp] theorem countDraw_i : (countDraw s).i = s.i := rfl
@[simp] theorem countDraw_pc : (countDraw s).pc = s.pc := rfl
@[simp] theorem countDraw_sp : (countDraw s).sp = s.sp := rfl
@[simp] theorem countDraw_stack : (countDraw s).stack = s.stack := rfl
@[simp] theorem countDraw_dt : (countDraw s).dt = s.dt := rfl
@[simp] theorem countDraw_st : (countDraw s).st = s.st := rfl
@[simp] theorem countDraw_key : (countDraw s).key = s.key := rfl
@[simp] theorem countDraw_fb : (countDraw s).fb = s.fb := rfl
@[simp] theorem countDraw_mem : (countDraw s).mem = s.mem := rfl
@[simp] theorem countDraw_wait : (countDraw s).wait = s.wait := rfl
@[simp] theorem countDraw_draws : (countDraw s).draws = s.draws + 1 := rfl

/-! ### commit -/

@[simp] theorem commit_v (pc : Word) (waiting : Bool) : (commit pc waiting s).v = s.v := rfl
@[simp] theorem commit_i (pc : Word) (waiting : Bool) : (commit pc waiting s).i = s.i := rfl
@[simp] theorem commit_pc (pc : Word) (waiting : Bool) : (commit pc waiting s).pc = pc := rfl
@[simp] theorem commit_sp (pc : Word) (waiting : Bool) : (commit pc waiting s).sp = s.sp := rfl
@[simp] theorem commit_stack (pc : Word) (waiting : Bool) : (commit pc waiting s).stack = s.stack := rfl
@[simp] theorem commit_dt (pc : Word) (waiting : Bool) : (commit pc waiting s).dt = s.dt := rfl
@[simp] theorem commit_st (pc : Word) (waiting : Bool) : (commit pc waiting s).st = s.st := rfl
@[simp] theorem commit_key (pc : Word) (waiting : Bool) : (commit pc waiting s).key = s.key := rfl
@[simp] theorem commit_fb (pc : Word) (waiting : Bool) : (commit pc waiting s).fb = s.fb := rfl
@[simp] theorem commit_mem (pc : Word) (waiting : Bool) : (commit pc waiting s).mem = s.mem := rfl
@[simp] theorem commit_wait (pc : Word) (waiting : Bool) : (commit pc waiting s).wait = waiting := rfl
@[simp] theorem commit_draws (pc : Word) (waiting : Bool) : (commit pc waiting s).draws = s.draws := rfl

/-! ### setFlag -/

@[simp] theorem setFlag_i (b : Bool) : (setFlag b s).i = s.i := rfl
@[simp] theorem setFlag_pc (b : Bool) : (setFlag b s).pc = s.pc := rfl
@[simp] theorem setFlag_sp (b : Bool) : (setFlag b s).sp = s.sp := rfl
@[simp] theorem setFlag_stack (b : Bool) : (setFlag b s).stack = s.stack := rfl
@[simp] theorem setFlag_dt (b : Bool) : (setFlag b s).dt = s.dt := rfl
@[simp] theorem setFlag_st (b : Bool) : (setFlag b s).st = s.st := rfl
@[simp] theorem setFlag_key (b : Bool) : (setFlag b s).key = s.key := rfl
@[simp] theorem setFlag_fb (b : Bool) : (setFlag b s).fb = s.fb := rfl
@[simp] theorem setFlag_mem (b : Bool) : (setFlag b s).mem = s.mem := rfl
@[simp] theorem setFlag_wait (b : Bool) : (setFlag b s).wait = s.wait := rfl
@[simp] theorem setFlag_draws (b : Bool) : (setFlag b s).draws = s.draws := rfl

/-! ### setVFrom, by induction on the bytes -/

@[simp] theorem setVFrom_i (r : Nat) (bs : List Byte) : (setVFrom r bs s).i = s.i := by
  induction bs generalizing r s with
  | nil => rfl
  | cons b bs ih => simp [setVFrom, ih]

@[simp] theorem setVFrom_pc (r : Nat) (bs : List Byte) : (setVFrom r bs s).pc = s.pc := by
  induction bs generalizing r s with
  | nil => rfl
  | cons b bs ih => simp [setVFrom, ih]

@[simp] theorem setVFrom_sp (r : Nat) (bs : List Byte) : (setVFrom r bs s).sp = s.sp := by
  induction bs generalizing r s with
  | nil => rfl
  | cons b bs ih => simp [setVFrom, ih]

@[simp] theorem setVFrom_stack (r : Nat) (bs : List Byte) : (setVFrom r bs s).stack = s.stack := by
  induction bs generalizing r s with
  | nil => rfl
  | cons b bs ih => simp [setVFrom, ih]

@[simp] theorem setVFrom_dt (r : Nat) (bs : List Byte) : (setVFrom r bs s).dt = s.dt := by
  induction bs generalizing r s with
  | nil => rfl
  | cons b bs ih => simp [setVFrom, ih]

@[simp] theorem setVFrom_st (r : Nat) (bs : List Byte) : (setVFrom r bs s).st = s.st := by
  induction bs generalizing r s with
  | nil => rfl
  | cons b bs ih => simp [setVFrom, ih]

@[simp] theorem setVFrom_key (r : Nat) (bs : List Byte) : (setVFrom r bs s).key = s.key := by
  induction bs generalizing r s with
  | nil => rfl
  | cons b bs ih => simp [setVFrom, ih]

@[simp] theorem setVFrom_fb (r : Nat) (bs : List Byte) : (setVFrom r bs s).fb = s.fb := by
  induction bs generalizing r s with
  | nil => rfl
  | cons b bs ih => simp [setVFrom, ih]

@[simp] theorem setVFrom_mem (r : Nat) (bs : List Byte) : (setVFrom r bs s).mem = s.mem := by
  induction bs generalizing r s with
  | nil => rfl
  | cons b bs ih => simp [setVFrom, ih]

@[simp] theorem setVFrom_wait (r : Nat) (bs : List Byte) : (setVFrom r bs s).wait = s.wait := by
  induction bs generalizing r s with
  | nil => rfl
  | cons b bs ih => simp [setVFrom, ih]

@[simp] theorem setVFrom_draws (r : Nat) (bs : List Byte) : (setVFrom r bs s).draws = s.draws := by
  induction bs generalizing r s with
  | nil => rfl
  | cons b bs ih => simp [setVFrom, ih]

/-! ### getV after each update -/

/-- Reading a register after writing one: the written byte there, the old byte elsewhere. -/
@[simp] theorem getV_setV (r q : RegIdx) (b : Byte) : getV (setV r b s) q = if q = r then b else getV s q := by
  simp only [getV, setV, Vector.getElem_set, BitVec.toNat_inj, eq_comm (a := r)]

@[simp] theorem getV_setFlag (q : RegIdx) (f : Bool) :
    getV (setFlag f s) q = if q = VF then flagByte f else getV s q := getV_setV s VF q (flagByte f)

@[simp] theorem getV_setI (q : RegIdx) (w : Word) : getV (setI w s) q = getV s q := rfl
@[simp] theorem getV_setDt (q : RegIdx) (b : Byte) : getV (setDt b s) q = getV s q := rfl
@[simp] theorem getV_setSt (q : RegIdx) (b : Byte) : getV (setSt b s) q = getV s q := rfl
@[simp] theorem getV_setKey (q : RegIdx) (k : Vector Bool 16) : getV (setKey k s) q = getV s q := rfl
@[simp] theorem getV_setFb (q : RegIdx) (fb : Framebuffer) : getV (setFb fb s) q = getV s q := rfl
@[simp] theorem getV_setMem (q : RegIdx) (m : Memory) : getV (setMem m s) q = getV s q := rfl
@[simp] theorem getV_setStack (q : RegIdx) (sp : Fin 17) (stack : Vector Word 16) : getV (setStack sp stack s) q = getV s q := rfl
@[simp] theorem getV_countDraw (q : RegIdx) : getV (countDraw s) q = getV s q := rfl
@[simp] theorem getV_commit (q : RegIdx) (pc : Word) (waiting : Bool) : getV (commit pc waiting s) q = getV s q := rfl

end Sys2Proof.Machine
end

