-- ==== Sys2Proof/Laws/Ops.lean ====
section
/-! SUPPORT. One lemma per shared operation that says what it does: the ends of an instruction, the bounds check, the
stack, the register block, the keypad, the sprite. -/

namespace Sys2Proof.Machine

/-! ### How an instruction ends -/

theorem retire_next {pc : Word} {s t : State} (h : retire pc s = .next t) : t = commit pc false s := by
  cases h; rfl

theorem advance_next {s t : State} (h : advance s = .next t) : t = commit (s.pc + 2) false s := retire_next h

theorem skipIf_next {c : Bool} {s t : State} (h : skipIf c s = .next t) :
    t = commit (if c then s.pc + 4 else s.pc + 2) false s := retire_next h

/-- The bounds check of R47: it runs its continuation on an empty or in-range block, and raises otherwise. -/
theorem withRange_eq (len : Nat) (s : State) (k : StepResult) :
    withRange len s k =
      if len = 0 ∨ s.i.toNat + len ≤ 4096 then k else .fault (.memoryOutOfRange (firstOutOfRange s.i)) := by
  by_cases h : len = 0 ∨ s.i.toNat + len ≤ 4096
  · simp [withRange, rangeOk, h]
  · simp [withRange, rangeOk, raise, h]

/-- The info of MemoryOutOfRange is max(a, 4096) (R44, R47). -/
theorem firstOutOfRange_toNat (a : Word) : (firstOutOfRange a).toNat = max a.toNat 4096 := by
  simp only [firstOutOfRange, Config.memSize]
  split
  · next h => simp; omega
  · next h => omega

/-! ### Register block -/

/-- The block load of R145: register q from the list if its number lies in the block, else unchanged. -/
theorem getV_setVFrom (r : Nat) (bs : List Byte) (s : State) (q : RegIdx) (hb : r + bs.length ≤ 16) :
    getV (setVFrom r bs s) q =
      if h : r ≤ q.toNat ∧ q.toNat < r + bs.length then bs[q.toNat - r] else getV s q := by
  induction bs generalizing r s with
  | nil => simp [setVFrom, show ¬ (r ≤ q.toNat ∧ q.toNat < r) by omega]
  | cons b bs ih =>
    simp only [List.length_cons] at hb
    rw [setVFrom, ih _ _ (by omega)]
    by_cases h : r + 1 ≤ q.toNat ∧ q.toNat < r + 1 + bs.length
    · have hs : q.toNat - r = (q.toNat - (r + 1)) + 1 := by omega
      rw [dif_pos h, dif_pos (by simp only [List.length_cons]; omega)]
      simp only [hs, List.getElem_cons_succ]
    · rw [dif_neg h, getV_setV]
      by_cases hq : q.toNat = r
      · have : q = BitVec.ofNat 4 r := by
          apply BitVec.eq_of_toNat_eq; simp; omega
        rw [if_pos this, dif_pos (by simp only [List.length_cons]; omega)]
        simp [hq]
      · have : q ≠ BitVec.ofNat 4 r := by
          rintro rfl; simp at hq; omega
        rw [if_neg this, dif_neg (by simp only [List.length_cons]; omega)]

@[simp] theorem blockV_length (s : State) (x : RegIdx) : (blockV s x).length = x.toNat + 1 := by simp [blockV]

/-- The k-th byte of the block store of R144 is V[k]. -/
theorem blockV_getElem (s : State) (x : RegIdx) (k : Nat) (h : k < (blockV s x).length) :
    (blockV s x)[k] = getV s (BitVec.ofNat 4 k) := by simp [blockV]

/-! ### Call stack -/

/-- A push below depth 16 (R24). -/
theorem push_of_lt {w : Word} {s : State} (h : s.sp.val < 16) :
    push w s = some (setStack ⟨s.sp.val + 1, by omega⟩ (s.stack.set s.sp.val w) s) := by simp [push, h]

/-- A push at depth 16 does not happen (R25). -/
theorem push_of_full {w : Word} {s : State} (h : s.sp.val = 16) : push w s = none := by simp [push, h]

/-- A pop above depth 0 (R24). -/
theorem pop_of_pos {s : State} (h : 0 < s.sp.val) :
    pop s = some (s.stack[s.sp.val - 1], setStack ⟨s.sp.val - 1, by omega⟩ s.stack s) := by simp [pop, h]

/-- A pop at depth 0 does not happen (R25). -/
theorem pop_of_zero {s : State} (h : s.sp.val = 0) : pop s = none := by simp [pop, h]

/-! ### Keypad -/

theorem keyDown_eq (s : State) (k : Nat) (h : k < 16) : keyDown s k = s.key[k] := by
  simp [keyDown, h]

/-- No key is down exactly when `lowestKey` finds none (R87). -/
theorem lowestKey_none {s : State} : lowestKey s = none ↔ ∀ k, k < 16 → keyDown s k = false := by
  simp [lowestKey, List.find?_eq_none]

/-- The same, said of the keypad latch. -/
theorem lowestKey_none_key {s : State} : lowestKey s = none ↔ ∀ k : Fin 16, s.key[k] = false := by
  rw [lowestKey_none]
  exact ⟨fun h k => by rw [← h k.val k.isLt, keyDown_eq s k.val k.isLt]; rfl,
    fun h k hk => by rw [keyDown_eq s k hk]; exact h ⟨k, hk⟩⟩

/-- What `lowestKey` finds is the least index of a key that is down (R162). -/
theorem lowestKey_some {s : State} {k : Nat} (h : lowestKey s = some k) :
    k < 16 ∧ keyDown s k = true ∧ ∀ j, j < k → keyDown s j = false := by
  obtain ⟨hk, as, bs, hl, hj⟩ := List.find?_eq_some_iff_append.mp h
  have hlt : as.length < 16 := by
    have := congrArg List.length hl; simp [Config.numKeys] at this; omega
  have hget : ∀ j (hj : j < (List.range 16).length), (as ++ k :: bs)[j]'(hl ▸ hj) = j := by
    intro j hj'
    simp only [← hl]; simp
  have hk' : k = as.length := by
    simpa using hget as.length (by simpa using hlt)
  refine ⟨by omega, hk, fun j hjk => ?_⟩
  have hja : j < as.length := by omega
  have hm : as[j] = j := by
    have := hget j (by simp; omega)
    rwa [List.getElem_append_left hja] at this
  simpa [hm] using hj as[j] (List.getElem_mem hja)

/-! ### Framebuffer -/

/-- Two pixels of the screen have the same place in the flat vector only if they are the same pixel (R33). -/
theorem pixelIndex_inj {r c r' c' : Nat} (hc : c < 64) (hc' : c' < 64) :
    r * 64 + c = r' * 64 + c' ↔ r = r' ∧ c = c' := by omega

/-- Toggling one pixel toggles that pixel and no other (R151). -/
theorem pixel_flipPixel (fb : Framebuffer) {r c r' c' : Nat} (hr : r < 32) (hc : c < 64) (hc' : c' < 64) :
    pixel (flipPixel fb r c) r' c' = (pixel fb r' c' ^^ decide (r' = r ∧ c' = c)) := by
  simp only [pixel, flipPixel, BitVec.getLsbD_xor, BitVec.getLsbD_twoPow, Config.fbCols]
  congr 1
  have : r * 64 + c < 2048 := by omega
  simp only [this, decide_true, Bool.true_and]
  exact decide_eq_decide.mpr (by omega)

/-- A list of pixels inside the screen. -/
def OnScreen (l : List (Nat × Nat)) : Prop := ∀ p ∈ l, p.1 < 32 ∧ p.2 < 64

/-- Toggling a list of distinct pixels: each pixel of the list is toggled once, and the collision bit says whether one
of them was set before (R151, R155). -/
theorem foldl_drawPixel {l : List (Nat × Nat)} (fb : Framebuffer) (hit : Bool) (hs : OnScreen l) (hn : l.Nodup) :
    (∀ r c, c < 64 → pixel (l.foldl drawPixel (fb, hit)).1 r c = (pixel fb r c ^^ decide ((r, c) ∈ l))) ∧
    (l.foldl drawPixel (fb, hit)).2 = (hit || l.any fun p => pixel fb p.1 p.2) := by
  induction l generalizing fb hit with
  | nil => simp
  | cons p l ih =>
    obtain ⟨hp, hl⟩ := List.nodup_cons.mp hn
    obtain ⟨hr, hc⟩ := hs p (by simp)
    have hs' : OnScreen l := fun q hq => hs q (by simp [hq])
    obtain ⟨ih1, ih2⟩ := ih (flipPixel fb p.1 p.2) (hit || pixel fb p.1 p.2) hs' hl
    refine ⟨fun r c hc' => ?_, ?_⟩
    · rw [List.foldl_cons, drawPixel, ih1 r c hc', pixel_flipPixel fb hr hc hc', Bool.xor_assoc]
      congr 1
      by_cases h : (r, c) = p
      · subst h; simp [hp]
      · have h' : ¬ (r = p.1 ∧ c = p.2) := fun ⟨a, b⟩ => h (by rw [a, b])
        simp [h, h']
    · rw [List.foldl_cons, drawPixel, ih2, List.any_cons, Bool.or_assoc]
      have keep : ∀ q ∈ l, pixel (flipPixel fb p.1 p.2) q.1 q.2 = pixel fb q.1 q.2 := fun q hq => by
        rw [pixel_flipPixel fb hr hc (hs' q hq).2]
        have : ¬ (q.1 = p.1 ∧ q.2 = p.2) := fun ⟨a, b⟩ => hp (by rwa [show p = q from Prod.ext a.symm b.symm])
        simp [this]
      congr 2
      rw [Bool.eq_iff_iff, List.any_eq_true, List.any_eq_true]
      exact exists_congr fun q => and_congr_right fun hq => by rw [keep q hq]

/-- The pixels of a sprite row: row `row`, column (vx + b) mod 64 for each 1 bit 7 − b (R153, R154). -/
theorem mem_rowPixels {vx row : Nat} {byte : Byte} {r c : Nat} :
    (r, c) ∈ rowPixels vx row byte ↔ r = row ∧ ∃ b, b < 8 ∧ byte.getLsbD (7 - b) = true ∧ c = (vx + b) % 64 := by
  simp only [rowPixels, List.mem_map, List.mem_filter, List.mem_range, Prod.mk.injEq]
  constructor
  · rintro ⟨b, ⟨hb, hbit⟩, rfl, rfl⟩; exact ⟨rfl, b, hb, hbit, rfl⟩
  · rintro ⟨rfl, b, hb, hbit, rfl⟩; exact ⟨b, ⟨hb, hbit⟩, rfl, rfl⟩

theorem rowPixels_nodup (vx row : Nat) (byte : Byte) : (rowPixels vx row byte).Nodup := by
  refine List.Nodup.map_on ?_ (List.nodup_range.filter _)
  intro a ha b hb hab
  have ha : a < 8 := by simpa using (List.mem_filter.mp ha).1
  have hb : b < 8 := by simpa using (List.mem_filter.mp hb).1
  have : (vx + a) % 64 = (vx + b) % 64 := (Prod.mk.injEq _ _ _ _ ▸ hab).2
  omega

/-- The pixels of a sprite: byte k, bit 7 − b falls on row (vy + r + k) mod 32, column (vx + b) mod 64 (R151). -/
theorem mem_spritePixels {vx vy r : Nat} {bytes : List Byte} {row col : Nat} :
    (row, col) ∈ spritePixels vx vy r bytes ↔
      ∃ k, ∃ h : k < bytes.length, ∃ b, b < 8 ∧ bytes[k].getLsbD (7 - b) = true ∧
        row = (vy + (r + k)) % 32 ∧ col = (vx + b) % 64 := by
  induction bytes generalizing r with
  | nil => simp [spritePixels]
  | cons byte rest ih =>
    rw [spritePixels, List.mem_append, mem_rowPixels, ih]
    constructor
    · rintro (⟨rfl, b, hb, hbit, rfl⟩ | ⟨k, hk, b, hb, hbit, hr, hc⟩)
      · exact ⟨0, by simp, b, hb, hbit, rfl, rfl⟩
      · exact ⟨k + 1, by simpa using hk, b, hb, hbit, by rw [hr, show r + 1 + k = r + (k + 1) by omega], hc⟩
    · rintro ⟨k, hk, b, hb, hbit, hr, hc⟩
      cases k with
      | zero => exact .inl ⟨hr, b, hb, hbit, hc⟩
      | succ k =>
        exact .inr ⟨k, by simpa using hk, b, hb, hbit, by rw [hr, show r + 1 + k = r + (k + 1) by omega], hc⟩

theorem spritePixels_onScreen (vx vy r : Nat) (bytes : List Byte) : OnScreen (spritePixels vx vy r bytes) := by
  rintro ⟨row, col⟩ h
  obtain ⟨k, _, b, _, _, rfl, rfl⟩ := mem_spritePixels.mp h
  exact ⟨Nat.mod_lt _ (by decide), Nat.mod_lt _ (by decide)⟩

/-- A sprite of at most 32 rows touches no pixel twice (R155). -/
theorem spritePixels_nodup (vx vy r : Nat) (bytes : List Byte) (h : bytes.length ≤ 32) :
    (spritePixels vx vy r bytes).Nodup := by
  induction bytes generalizing r with
  | nil => simp [spritePixels]
  | cons byte rest ih =>
    simp only [List.length_cons] at h
    refine List.nodup_append'.mpr ⟨rowPixels_nodup _ _ _, ih (r + 1) (by omega), ?_⟩
    rintro ⟨row, col⟩ h1 h2
    have e1 := (mem_rowPixels.mp h1).1
    obtain ⟨k, hk, _, _, _, e2, _⟩ := mem_spritePixels.mp h2
    simp only [Config.fbRows] at e1
    omega

/-- Everything a draw does (R151, R154, R155): each pixel of the sprite is toggled once, no other changes, and the
collision bit says whether one of them was set before. -/
theorem drawSprite_spec (fb : Framebuffer) (vx vy : Nat) (bytes : List Byte) (h : bytes.length ≤ 32) :
    (∀ r c, c < 64 → pixel (drawSprite fb vx vy bytes).1 r c =
      (pixel fb r c ^^ decide ((r, c) ∈ spritePixels vx vy 0 bytes))) ∧
    (drawSprite fb vx vy bytes).2 = (spritePixels vx vy 0 bytes).any fun p => pixel fb p.1 p.2 := by
  simpa [drawSprite] using
    foldl_drawPixel fb false (spritePixels_onScreen vx vy 0 bytes) (spritePixels_nodup vx vy 0 bytes h)

end Sys2Proof.Machine
end

