-- ==== Sys2Proof/Laws/PerInstr.lean ====
section
/-! SUPPORT. Per instruction: its operands fit, its row is in the opcode map, and its word matches that row
(30_encoding.md R64, R66). -/

namespace Sys2Proof.Laws.EncodesRow

/-- The instruction is well formed, its row is a row of the opcode map, and its word belongs to that row. -/
def Statement (i : Instr) : Prop :=
  WellFormed i = true ∧ i.row ∈ opcodeTable ∧ i.row.covers (encode i) = true

theorem cls : Statement .cls := by unfold Statement; decide

theorem ret : Statement .ret := by unfold Statement; decide

theorem jp (nnn : Addr12) : Statement (.jp nnn) :=
  ⟨wellFormed_all _, by simp [opcodeTable, opcodeRowsLow, opcodeRowsAlu, opcodeRowsHigh, opcodeRowsF, Instr.row],
    by simp only [OpcodeRow.covers, Instr.row, encode]; exact beq_iff_eq.mpr (wordNnn_mask ..)⟩

theorem call (nnn : Addr12) : Statement (.call nnn) :=
  ⟨wellFormed_all _, by simp [opcodeTable, opcodeRowsLow, opcodeRowsAlu, opcodeRowsHigh, opcodeRowsF, Instr.row],
    by simp only [OpcodeRow.covers, Instr.row, encode]; exact beq_iff_eq.mpr (wordNnn_mask ..)⟩

theorem seKk (x : RegIdx) (kk : Byte) : Statement (.seKk x kk) :=
  ⟨wellFormed_all _, by simp [opcodeTable, opcodeRowsLow, opcodeRowsAlu, opcodeRowsHigh, opcodeRowsF, Instr.row],
    by simp only [OpcodeRow.covers, Instr.row, encode]; exact beq_iff_eq.mpr (wordXkk_mask ..)⟩

theorem sneKk (x : RegIdx) (kk : Byte) : Statement (.sneKk x kk) :=
  ⟨wellFormed_all _, by simp [opcodeTable, opcodeRowsLow, opcodeRowsAlu, opcodeRowsHigh, opcodeRowsF, Instr.row],
    by simp only [OpcodeRow.covers, Instr.row, encode]; exact beq_iff_eq.mpr (wordXkk_mask ..)⟩

theorem seVy (x y : RegIdx) : Statement (.seVy x y) :=
  ⟨wellFormed_all _, by simp [opcodeTable, opcodeRowsLow, opcodeRowsAlu, opcodeRowsHigh, opcodeRowsF, Instr.row],
    by simp only [OpcodeRow.covers, Instr.row, encode]; exact beq_iff_eq.mpr (wordXyn_mask_n ..)⟩

theorem ldKk (x : RegIdx) (kk : Byte) : Statement (.ldKk x kk) :=
  ⟨wellFormed_all _, by simp [opcodeTable, opcodeRowsLow, opcodeRowsAlu, opcodeRowsHigh, opcodeRowsF, Instr.row],
    by simp only [OpcodeRow.covers, Instr.row, encode]; exact beq_iff_eq.mpr (wordXkk_mask ..)⟩

theorem addKk (x : RegIdx) (kk : Byte) : Statement (.addKk x kk) :=
  ⟨wellFormed_all _, by simp [opcodeTable, opcodeRowsLow, opcodeRowsAlu, opcodeRowsHigh, opcodeRowsF, Instr.row],
    by simp only [OpcodeRow.covers, Instr.row, encode]; exact beq_iff_eq.mpr (wordXkk_mask ..)⟩

theorem ldVy (x y : RegIdx) : Statement (.ldVy x y) :=
  ⟨wellFormed_all _, by simp [opcodeTable, opcodeRowsLow, opcodeRowsAlu, opcodeRowsHigh, opcodeRowsF, Instr.row],
    by simp only [OpcodeRow.covers, Instr.row, encode]; exact beq_iff_eq.mpr (wordXyn_mask_n ..)⟩

theorem orVy (x y : RegIdx) : Statement (.orVy x y) :=
  ⟨wellFormed_all _, by simp [opcodeTable, opcodeRowsLow, opcodeRowsAlu, opcodeRowsHigh, opcodeRowsF, Instr.row],
    by simp only [OpcodeRow.covers, Instr.row, encode]; exact beq_iff_eq.mpr (wordXyn_mask_n ..)⟩

theorem andVy (x y : RegIdx) : Statement (.andVy x y) :=
  ⟨wellFormed_all _, by simp [opcodeTable, opcodeRowsLow, opcodeRowsAlu, opcodeRowsHigh, opcodeRowsF, Instr.row],
    by simp only [OpcodeRow.covers, Instr.row, encode]; exact beq_iff_eq.mpr (wordXyn_mask_n ..)⟩

theorem xorVy (x y : RegIdx) : Statement (.xorVy x y) :=
  ⟨wellFormed_all _, by simp [opcodeTable, opcodeRowsLow, opcodeRowsAlu, opcodeRowsHigh, opcodeRowsF, Instr.row],
    by simp only [OpcodeRow.covers, Instr.row, encode]; exact beq_iff_eq.mpr (wordXyn_mask_n ..)⟩

theorem addVy (x y : RegIdx) : Statement (.addVy x y) :=
  ⟨wellFormed_all _, by simp [opcodeTable, opcodeRowsLow, opcodeRowsAlu, opcodeRowsHigh, opcodeRowsF, Instr.row],
    by simp only [OpcodeRow.covers, Instr.row, encode]; exact beq_iff_eq.mpr (wordXyn_mask_n ..)⟩

theorem sub (x y : RegIdx) : Statement (.sub x y) :=
  ⟨wellFormed_all _, by simp [opcodeTable, opcodeRowsLow, opcodeRowsAlu, opcodeRowsHigh, opcodeRowsF, Instr.row],
    by simp only [OpcodeRow.covers, Instr.row, encode]; exact beq_iff_eq.mpr (wordXyn_mask_n ..)⟩

theorem shr (x y : RegIdx) : Statement (.shr x y) :=
  ⟨wellFormed_all _, by simp [opcodeTable, opcodeRowsLow, opcodeRowsAlu, opcodeRowsHigh, opcodeRowsF, Instr.row],
    by simp only [OpcodeRow.covers, Instr.row, encode]; exact beq_iff_eq.mpr (wordXyn_mask_n ..)⟩

theorem subn (x y : RegIdx) : Statement (.subn x y) :=
  ⟨wellFormed_all _, by simp [opcodeTable, opcodeRowsLow, opcodeRowsAlu, opcodeRowsHigh, opcodeRowsF, Instr.row],
    by simp only [OpcodeRow.covers, Instr.row, encode]; exact beq_iff_eq.mpr (wordXyn_mask_n ..)⟩

theorem shl (x y : RegIdx) : Statement (.shl x y) :=
  ⟨wellFormed_all _, by simp [opcodeTable, opcodeRowsLow, opcodeRowsAlu, opcodeRowsHigh, opcodeRowsF, Instr.row],
    by simp only [OpcodeRow.covers, Instr.row, encode]; exact beq_iff_eq.mpr (wordXyn_mask_n ..)⟩

theorem sneVy (x y : RegIdx) : Statement (.sneVy x y) :=
  ⟨wellFormed_all _, by simp [opcodeTable, opcodeRowsLow, opcodeRowsAlu, opcodeRowsHigh, opcodeRowsF, Instr.row],
    by simp only [OpcodeRow.covers, Instr.row, encode]; exact beq_iff_eq.mpr (wordXyn_mask_n ..)⟩

theorem ldI (nnn : Addr12) : Statement (.ldI nnn) :=
  ⟨wellFormed_all _, by simp [opcodeTable, opcodeRowsLow, opcodeRowsAlu, opcodeRowsHigh, opcodeRowsF, Instr.row],
    by simp only [OpcodeRow.covers, Instr.row, encode]; exact beq_iff_eq.mpr (wordNnn_mask ..)⟩

theorem jpV0 (nnn : Addr12) : Statement (.jpV0 nnn) :=
  ⟨wellFormed_all _, by simp [opcodeTable, opcodeRowsLow, opcodeRowsAlu, opcodeRowsHigh, opcodeRowsF, Instr.row],
    by simp only [OpcodeRow.covers, Instr.row, encode]; exact beq_iff_eq.mpr (wordNnn_mask ..)⟩

theorem rnd (x : RegIdx) (kk : Byte) : Statement (.rnd x kk) :=
  ⟨wellFormed_all _, by simp [opcodeTable, opcodeRowsLow, opcodeRowsAlu, opcodeRowsHigh, opcodeRowsF, Instr.row],
    by simp only [OpcodeRow.covers, Instr.row, encode]; exact beq_iff_eq.mpr (wordXkk_mask ..)⟩

theorem drw (x y : RegIdx) (n : Nibble) : Statement (.drw x y n) :=
  ⟨wellFormed_all _, by simp [opcodeTable, opcodeRowsLow, opcodeRowsAlu, opcodeRowsHigh, opcodeRowsF, Instr.row],
    by simp only [OpcodeRow.covers, Instr.row, encode]; exact beq_iff_eq.mpr (wordXyn_mask ..)⟩

theorem skp (x : RegIdx) : Statement (.skp x) :=
  ⟨wellFormed_all _, by simp [opcodeTable, opcodeRowsLow, opcodeRowsAlu, opcodeRowsHigh, opcodeRowsF, Instr.row],
    by simp only [OpcodeRow.covers, Instr.row, encode]; exact beq_iff_eq.mpr (wordXkk_mask_kk ..)⟩

theorem sknp (x : RegIdx) : Statement (.sknp x) :=
  ⟨wellFormed_all _, by simp [opcodeTable, opcodeRowsLow, opcodeRowsAlu, opcodeRowsHigh, opcodeRowsF, Instr.row],
    by simp only [OpcodeRow.covers, Instr.row, encode]; exact beq_iff_eq.mpr (wordXkk_mask_kk ..)⟩

theorem ldVxDt (x : RegIdx) : Statement (.ldVxDt x) :=
  ⟨wellFormed_all _, by simp [opcodeTable, opcodeRowsLow, opcodeRowsAlu, opcodeRowsHigh, opcodeRowsF, Instr.row],
    by simp only [OpcodeRow.covers, Instr.row, encode]; exact beq_iff_eq.mpr (wordXkk_mask_kk ..)⟩

theorem ldVxK (x : RegIdx) : Statement (.ldVxK x) :=
  ⟨wellFormed_all _, by simp [opcodeTable, opcodeRowsLow, opcodeRowsAlu, opcodeRowsHigh, opcodeRowsF, Instr.row],
    by simp only [OpcodeRow.covers, Instr.row, encode]; exact beq_iff_eq.mpr (wordXkk_mask_kk ..)⟩

theorem ldDtVx (x : RegIdx) : Statement (.ldDtVx x) :=
  ⟨wellFormed_all _, by simp [opcodeTable, opcodeRowsLow, opcodeRowsAlu, opcodeRowsHigh, opcodeRowsF, Instr.row],
    by simp only [OpcodeRow.covers, Instr.row, encode]; exact beq_iff_eq.mpr (wordXkk_mask_kk ..)⟩

theorem ldStVx (x : RegIdx) : Statement (.ldStVx x) :=
  ⟨wellFormed_all _, by simp [opcodeTable, opcodeRowsLow, opcodeRowsAlu, opcodeRowsHigh, opcodeRowsF, Instr.row],
    by simp only [OpcodeRow.covers, Instr.row, encode]; exact beq_iff_eq.mpr (wordXkk_mask_kk ..)⟩

theorem addI (x : RegIdx) : Statement (.addI x) :=
  ⟨wellFormed_all _, by simp [opcodeTable, opcodeRowsLow, opcodeRowsAlu, opcodeRowsHigh, opcodeRowsF, Instr.row],
    by simp only [OpcodeRow.covers, Instr.row, encode]; exact beq_iff_eq.mpr (wordXkk_mask_kk ..)⟩

theorem ldF (x : RegIdx) : Statement (.ldF x) :=
  ⟨wellFormed_all _, by simp [opcodeTable, opcodeRowsLow, opcodeRowsAlu, opcodeRowsHigh, opcodeRowsF, Instr.row],
    by simp only [OpcodeRow.covers, Instr.row, encode]; exact beq_iff_eq.mpr (wordXkk_mask_kk ..)⟩

theorem ldB (x : RegIdx) : Statement (.ldB x) :=
  ⟨wellFormed_all _, by simp [opcodeTable, opcodeRowsLow, opcodeRowsAlu, opcodeRowsHigh, opcodeRowsF, Instr.row],
    by simp only [OpcodeRow.covers, Instr.row, encode]; exact beq_iff_eq.mpr (wordXkk_mask_kk ..)⟩

theorem ldMem (x : RegIdx) : Statement (.ldMem x) :=
  ⟨wellFormed_all _, by simp [opcodeTable, opcodeRowsLow, opcodeRowsAlu, opcodeRowsHigh, opcodeRowsF, Instr.row],
    by simp only [OpcodeRow.covers, Instr.row, encode]; exact beq_iff_eq.mpr (wordXkk_mask_kk ..)⟩

theorem ldVxMem (x : RegIdx) : Statement (.ldVxMem x) :=
  ⟨wellFormed_all _, by simp [opcodeTable, opcodeRowsLow, opcodeRowsAlu, opcodeRowsHigh, opcodeRowsF, Instr.row],
    by simp only [OpcodeRow.covers, Instr.row, encode]; exact beq_iff_eq.mpr (wordXkk_mask_kk ..)⟩

end Sys2Proof.Laws.EncodesRow
end

