-- ==== Sys2Proof/Laws/Step.lean ====
section
/-! SUPPORT. What the fetch and the step do: the fetch depends on PC and memory alone, and a step that runs an instruction
fetched it at or below 4094. -/

namespace Sys2Proof.Machine

/-- An instruction was fetched only from a PC at or below 4094 (R44). -/
theorem fetchInstr_pc_le {s : State} {i : Instr} (h : fetchInstr s = .ok i) : s.pc.toNat ≤ 4094 := by
  by_contra hc
  simp [fetchInstr, fetch, hc] at h

/-- The fetch reads PC and memory and nothing else (R173). -/
theorem fetchInstr_congr {s t : State} (hpc : t.pc = s.pc) (hmem : t.mem = s.mem) : fetchInstr t = fetchInstr s := by
  simp only [fetchInstr, fetch, hpc, hmem]

/-- The instruction a valid word at PC stands for (R85). -/
theorem fetchInstr_of_word {s : State} {i : Instr} (hpc : s.pc.toNat ≤ 4094)
    (h : decodeWord (wordOfBytes (Memory.read s.mem s.pc.toNat) (Memory.read s.mem (s.pc.toNat + 1))) = some i) :
    fetchInstr s = .ok i := by
  simp [fetchInstr, fetch, hpc, h]

/-- A step runs the fetched instruction (R85). -/
theorem step_of_fetchInstr {s : State} {i : Instr} (h : fetchInstr s = .ok i) : step s = exec i s := by
  simp [step, h]

/-- A step that answers a next state ran a fetched instruction (R85, R171). -/
theorem step_next {s t : State} (h : step s = .next t) : ∃ i, fetchInstr s = .ok i ∧ exec i s = .next t := by
  unfold step at h
  split at h
  · cases h
  · next i hi => exact ⟨i, hi, h⟩

/-- Placing a word at PC makes it the word that is fetched (R43). -/
theorem fetch_placeWord {s : State} (w : Word) (h : s.pc.toNat ≤ 4094) : fetch (placeWord w s) = .ok w := by
  have hi : Memory.read (placeWord w s).mem s.pc.toNat = hiByte w := by
    simp [placeWord, h, Memory.read_writeBytes]
  have lo : Memory.read (placeWord w s).mem (s.pc.toNat + 1) = loByte w := by
    simp [placeWord, h, Memory.read_writeBytes]
  have hp : (placeWord w s).pc = s.pc := by simp [placeWord, h]
  simp only [fetch, hp, hi, lo, h, if_true]
  exact congrArg Except.ok (wordOfBytes_bytes w)

end Sys2Proof.Machine
end

