-- ==== Sys2Proof/Tests/Slice0.lean ====
section
/-! SUPPORT. The model's own tests. Expected values are the vectors of spec/95_test_vectors.md (named in brackets) and the
worked examples of the rules; the last sections show a state that meets the hypotheses of each obligation. -/

namespace Sys2Proof.Tests

open Sys2Proof.Machine

/-! ### Helpers -/

/-- The next state of an outcome. -/
def nextOf : StepResult → Option State
  | .next t => some t
  | _ => none

/-- The fault of an outcome. -/
def faultOf : StepResult → Option Fault
  | .fault f => some f
  | _ => none

/-- One element of the state after an instruction. -/
def after (i : Instr) (s : State) (get : State → α) : Option α := (nextOf (exec i s)).map get

/-- The reset state with some registers set. -/
def withV (rs : List (RegIdx × Byte)) : State := rs.foldl (fun s r => setV r.1 r.2 s) State.reset

/-- A state with PC at `pc`. -/
def atPc (pc : Word) (s : State) : State := { s with pc := pc }

/-- A state with a stack of depth `sp`, every entry 0x0202. -/
def atDepth (sp : Fin 17) (s : State) : State := setStack sp (Vector.replicate 16 0x0202) s

/-- A state with bytes in memory. -/
def withMem (base : Nat) (bytes : List Byte) (s : State) : State := setMem (Memory.writeBytes s.mem base bytes) s

/-- A state with the listed keys down. -/
def withKeys (ks : List (Fin 16)) (s : State) : State :=
  setKey (ks.foldl (fun v k => v.set k.val true) (Vector.replicate 16 false)) s

/-! ### Well-formedness: each check refuses an operand that does not fit -/

theorem test_x_too_wide : operandsFit [(.x, 16)] = false := by decide
theorem test_y_too_wide : operandsFit [(.x, 15), (.y, 16)] = false := by decide
theorem test_n_too_wide : operandsFit [(.x, 0), (.y, 0), (.n, 16)] = false := by decide
theorem test_kk_too_wide : operandsFit [(.x, 0), (.kk, 256)] = false := by decide
theorem test_nnn_too_wide : operandsFit [(.nnn, 4096)] = false := by decide
theorem test_operands_fit : operandsFit [(.x, 15), (.y, 15), (.n, 15), (.kk, 255), (.nnn, 4095)] = true := by decide

/-! ### Decoding, words written out bit by bit from the encodings of 30_encoding.md R63 and R66 -/

theorem test_decode_cls : decodeWord 0b0000_0000_1110_0000#16 = some .cls := by decide
theorem test_decode_ret : decodeWord 0b0000_0000_1110_1110#16 = some .ret := by decide
theorem test_decode_jp : decodeWord 0b0001_0010_0011_0100#16 = some (.jp 0x234#12) := by decide
theorem test_decode_call : decodeWord 0b0010_0010_0000_0110#16 = some (.call 0x206#12) := by decide
theorem test_decode_seKk : decodeWord 0b0011_1010_0100_0010#16 = some (.seKk 0xA#4 0x42#8) := by decide
theorem test_decode_sneKk : decodeWord 0b0100_1010_0100_0010#16 = some (.sneKk 0xA#4 0x42#8) := by decide
theorem test_decode_seVy : decodeWord 0b0101_0001_0010_0000#16 = some (.seVy 0x1#4 0x2#4) := by decide
theorem test_decode_ldKk : decodeWord 0b0110_1010_1111_1111#16 = some (.ldKk 0xA#4 0xFF#8) := by decide
theorem test_decode_addKk : decodeWord 0b0111_1010_0000_0001#16 = some (.addKk 0xA#4 0x01#8) := by decide
theorem test_decode_ldVy : decodeWord 0b1000_0001_0010_0000#16 = some (.ldVy 0x1#4 0x2#4) := by decide
theorem test_decode_orVy : decodeWord 0b1000_0001_0010_0001#16 = some (.orVy 0x1#4 0x2#4) := by decide
theorem test_decode_andVy : decodeWord 0b1000_0001_0010_0010#16 = some (.andVy 0x1#4 0x2#4) := by decide
theorem test_decode_xorVy : decodeWord 0b1000_0001_0010_0011#16 = some (.xorVy 0x1#4 0x2#4) := by decide
theorem test_decode_addVy : decodeWord 0b1000_0001_0010_0100#16 = some (.addVy 0x1#4 0x2#4) := by decide
theorem test_decode_sub : decodeWord 0b1000_0001_0010_0101#16 = some (.sub 0x1#4 0x2#4) := by decide
theorem test_decode_shr : decodeWord 0b1000_0001_0010_0110#16 = some (.shr 0x1#4 0x2#4) := by decide
theorem test_decode_subn : decodeWord 0b1000_0001_0010_0111#16 = some (.subn 0x1#4 0x2#4) := by decide
theorem test_decode_shl : decodeWord 0b1000_0001_0010_1110#16 = some (.shl 0x1#4 0x2#4) := by decide
theorem test_decode_sneVy : decodeWord 0b1001_0001_0010_0000#16 = some (.sneVy 0x1#4 0x2#4) := by decide
theorem test_decode_ldI : decodeWord 0b1010_0011_0000_0000#16 = some (.ldI 0x300#12) := by decide
theorem test_decode_jpV0 : decodeWord 0b1011_0011_0000_0000#16 = some (.jpV0 0x300#12) := by decide
theorem test_decode_rnd : decodeWord 0b1100_0001_0000_1111#16 = some (.rnd 0x1#4 0x0F#8) := by decide
theorem test_decode_drw : decodeWord 0b1101_0111_1010_0101#16 = some (.drw 0x7#4 0xA#4 0x5#4) := by decide
theorem test_decode_skp : decodeWord 0b1110_0010_1001_1110#16 = some (.skp 0x2#4) := by decide
theorem test_decode_sknp : decodeWord 0b1110_0010_1010_0001#16 = some (.sknp 0x2#4) := by decide
theorem test_decode_ldVxDt : decodeWord 0b1111_0011_0000_0111#16 = some (.ldVxDt 0x3#4) := by decide
theorem test_decode_ldVxK : decodeWord 0b1111_0011_0000_1010#16 = some (.ldVxK 0x3#4) := by decide
theorem test_decode_ldDtVx : decodeWord 0b1111_0011_0001_0101#16 = some (.ldDtVx 0x3#4) := by decide
theorem test_decode_ldStVx : decodeWord 0b1111_0011_0001_1000#16 = some (.ldStVx 0x3#4) := by decide
theorem test_decode_addI : decodeWord 0b1111_0001_0001_1110#16 = some (.addI 0x1#4) := by decide
theorem test_decode_ldF : decodeWord 0b1111_0001_0010_1001#16 = some (.ldF 0x1#4) := by decide
theorem test_decode_ldB : decodeWord 0b1111_0001_0011_0011#16 = some (.ldB 0x1#4) := by decide
theorem test_decode_ldMem : decodeWord 0b1111_0010_0101_0101#16 = some (.ldMem 0x2#4) := by decide
theorem test_decode_ldVxMem : decodeWord 0b1111_0010_0110_0101#16 = some (.ldVxMem 0x2#4) := by decide

/-- Invalid words [S9a, S9b, K11, A40, A41, T7, T15, E4]. -/
theorem test_invalid_words :
    [0x5123, 0x0123, 0x9121, 0x8128, 0x812F, 0xE29F, 0xE09D, 0xF300, 0xF375, 0x0000, 0xFFFF, 0x00E1].map
      (fun w => decodeWord (BitVec.ofNat 16 w)) = List.replicate 12 none := by decide

/-- The fetch is big-endian: bytes 12 34 are JP 0x234 [E6]; too few bytes are refused. -/
theorem test_decode_bytes : decode [0x12, 0x34, 0x56] = .ok (.jp 0x234#12, [0x56]) ∧
    decode [0x12] = .error .truncated ∧ decode [0x80, 0x08] = .error (.invalidOpcode 0x8008) := by decide

theorem test_table_word : decodeTableWord 16 0x8014 = some (.addVy 0x0#4 0x1#4) := by decide

/-! ### The step -/

/-- The placed word runs as the first instruction after reset [A1]. -/
theorem test_withFetchWord :
    (nextOf (step (State.reset.withFetchWord 16 0x6AFF))).map (fun t => (getV t 0xA, t.pc)) = some (0xFF, 0x202) := by
  decide

/-- A bare reset and a step [R5, R204]. -/
theorem test_bare_reset_faults : faultOf (step State.reset) = some (.invalidOpcode 0) := by decide

/-- PC = 0x0FFF [R6] and PC = 0x1234 [R7]. -/
theorem test_fetch_out_of_range : faultOf (step (atPc 0x0FFF State.reset)) = some (.memoryOutOfRange 0x1000) ∧
    faultOf (step (atPc 0x1234 State.reset)) = some (.memoryOutOfRange 0x1234) := by decide

/-- An odd PC fetches like an even one [F12]. -/
theorem test_fetch_odd :
    (nextOf (step (atPc 0x203 (withMem 0x203 [0x6A, 0x55] State.reset)))).map (fun t => (getV t 0xA, t.pc)) =
      some (0x55, 0x205) := by decide

/-! ### Control transfer -/

/-- [F4, second step]. -/
theorem test_ret : after .ret (atDepth 1 (atPc 0x204 State.reset)) (fun t => (t.pc, t.sp, t.stack[0])) =
    some (0x202, 0, 0x202) := by decide
/-- [F5]. -/
theorem test_ret_underflow : faultOf (exec .ret State.reset) = some .stackUnderflow := by decide
/-- [F1]. -/
theorem test_jp : after (.jp 0xABC) State.reset (·.pc) = some 0xABC := by decide
/-- [F3]. -/
theorem test_call : after (.call 0x300) State.reset (fun t => (t.pc, t.sp, t.stack[0])) = some (0x300, 1, 0x202) := by
  decide
/-- [F7]. -/
theorem test_call_overflow : faultOf (exec (.call 0x200) (atDepth 16 State.reset)) = some .stackOverflow := by
  decide
/-- [F8]. -/
theorem test_jpV0 : after (.jpV0 0x300) (withV [(0, 0x10)]) (·.pc) = some 0x310 := by decide
/-- [F9]. -/
theorem test_jpV0_not_masked : after (.jpV0 0xFFF) (withV [(0, 0xFF)]) (·.pc) = some 0x10FE := by decide

/-! ### Skips -/

/-- [K1, K2]. -/
theorem test_seKk : after (.seKk 0xA 0x42) (withV [(0xA, 0x42)]) (·.pc) = some 0x204 ∧
    after (.seKk 0xA 0x42) (withV [(0xA, 0x41)]) (·.pc) = some 0x202 := by decide
/-- [K3, K4]. -/
theorem test_sneKk : after (.sneKk 0xA 0x42) (withV [(0xA, 0x42)]) (·.pc) = some 0x202 ∧
    after (.sneKk 0xA 0x42) (withV [(0xA, 0x41)]) (·.pc) = some 0x204 := by decide
/-- [K5, K6]. -/
theorem test_seVy : after (.seVy 1 2) (withV [(1, 7), (2, 7)]) (·.pc) = some 0x204 ∧
    after (.seVy 1 2) (withV [(1, 7), (2, 8)]) (·.pc) = some 0x202 := by decide
/-- [K8, K9]. -/
theorem test_sneVy : after (.sneVy 1 2) (withV [(1, 7), (2, 7)]) (·.pc) = some 0x202 ∧
    after (.sneVy 1 2) (withV [(1, 7), (2, 8)]) (·.pc) = some 0x204 := by decide

/-! ### Loads and arithmetic -/

/-- V1, V2 and VF after an instruction. -/
def v12F (t : State) : Byte × Byte × Byte := (getV t 1, getV t 2, getV t VF)

/-- [A1]. -/
theorem test_ldKk : after (.ldKk 0xA 0xFF) State.reset (fun t => (getV t 0xA, t.pc)) = some (0xFF, 0x202) := by
  decide
/-- [A2]. -/
theorem test_addKk : after (.addKk 1 0x01) (withV [(1, 0xFF), (VF, 0x55)]) v12F = some (0, 0, 0x55) := by decide
/-- [A3]. -/
theorem test_addKk_vf : after (.addKk VF 0x01) (withV [(VF, 0xFF)]) v12F = some (0, 0, 0) := by decide
/-- [A4]. -/
theorem test_ldVy : after (.ldVy 1 2) (withV [(1, 0x01), (2, 0xAB)]) v12F = some (0xAB, 0xAB, 0) := by decide
/-- [A5]. -/
theorem test_orVy : after (.orVy 1 2) (withV [(1, 0xF0), (2, 0x0F), (VF, 0x77)]) v12F = some (0xFF, 0x0F, 0x77) := by
  decide
/-- [A6]. -/
theorem test_andVy : after (.andVy 1 2) (withV [(1, 0xF0), (2, 0x3C)]) v12F = some (0x30, 0x3C, 0) := by decide
/-- [A7]. -/
theorem test_xorVy : after (.xorVy 1 2) (withV [(1, 0xF0), (2, 0x3C)]) v12F = some (0xCC, 0x3C, 0) := by decide
/-- [A10, A11]. -/
theorem test_addVy : after (.addVy 1 2) (withV [(1, 0x80), (2, 0x7F), (VF, 9)]) v12F = some (0xFF, 0x7F, 0) ∧
    after (.addVy 1 2) (withV [(1, 0x80), (2, 0x80)]) v12F = some (0, 0x80, 1) := by decide
/-- [A14, A15]. -/
theorem test_addVy_vf : after (.addVy VF 1) (withV [(VF, 0x10), (1, 2)]) v12F = some (2, 0, 0) ∧
    after (.addVy 1 VF) (withV [(1, 0xFF), (VF, 1)]) v12F = some (0, 0, 1) := by decide
/-- [A20, A22]. -/
theorem test_sub : after (.sub 1 2) (withV [(1, 0x0A), (2, 3)]) v12F = some (7, 3, 1) ∧
    after (.sub 1 2) (withV [(1, 3), (2, 0x0A)]) v12F = some (0xF9, 0x0A, 0) := by decide
/-- [A21, A23]. -/
theorem test_sub_equal_and_vf : after (.sub 1 2) (withV [(1, 7), (2, 7)]) v12F = some (0, 7, 0) ∧
    after (.sub VF 1) (withV [(VF, 0x0A), (1, 3)]) v12F = some (3, 0, 1) := by decide
/-- [A30, A31]. -/
theorem test_shr : after (.shr 1 2) (withV [(1, 5), (2, 0xFF)]) v12F = some (2, 0xFF, 1) ∧
    after (.shr 1 2) (withV [(1, 4)]) v12F = some (2, 0, 0) := by decide
/-- [A34, with VF = 0x02]. -/
theorem test_shr_vf : after (.shr VF 0) (withV [(VF, 2)]) v12F = some (0, 0, 0) := by decide
/-- [A25, A27]. -/
theorem test_subn : after (.subn 1 2) (withV [(1, 3), (2, 0x0A)]) v12F = some (7, 0x0A, 1) ∧
    after (.subn 1 2) (withV [(1, 0x0A), (2, 3)]) v12F = some (0xF9, 3, 0) := by decide
/-- [A26, A28]. -/
theorem test_subn_equal_and_vf : after (.subn 1 2) (withV [(1, 7), (2, 7)]) v12F = some (0, 7, 0) ∧
    after (.subn VF 1) (withV [(VF, 3), (1, 0x0A)]) v12F = some (0x0A, 0, 1) := by decide
/-- [A35, A36]. -/
theorem test_shl : after (.shl 1 2) (withV [(1, 0x81), (2, 0xFF)]) v12F = some (2, 0xFF, 1) ∧
    after (.shl 1 2) (withV [(1, 0x41)]) v12F = some (0x82, 0, 0) := by decide
/-- [A38, A39]. -/
theorem test_shl_vf : after (.shl VF 0) (withV [(VF, 0xC0)]) v12F = some (0, 0, 1) ∧
    after (.shl VF 0) (withV [(VF, 0x40)]) v12F = some (0, 0, 0) := by decide
/-- Cxkk completes and counts its draw, whatever the byte is. -/
theorem test_rnd : after (.rnd 1 0x0F) State.reset (fun t => (t.pc, t.draws)) = some (0x202, 1) := by decide
/-- With the byte given [A42, A43]. -/
theorem test_rndWith : (nextOf (rndWith 0xA7 1 0x0F State.reset)).map v12F = some (7, 0, 0) ∧
    (nextOf (rndWith 0xFF 1 0x00 (withV [(1, 0x55)]))).map v12F = some (0, 0, 0) := by decide

/-! ### Index register and memory -/

/-- [M1]. -/
theorem test_ldI : after (.ldI 0xFFF) State.reset (·.i) = some 0xFFF := by decide
/-- [M2, M3]. -/
theorem test_addI : after (.addI 1) (setI 0x0FFF (withV [(1, 0xFF)])) (fun t => (t.i, getV t VF)) = some (0x10FE, 0) ∧
    after (.addI 1) (setI 0xFFFF (withV [(1, 2)])) (·.i) = some 1 := by decide
/-- [M4, M5]. -/
theorem test_ldF : after (.ldF 1) (withV [(1, 0x0A)]) (·.i) = some 0x32 ∧
    after (.ldF 1) (withV [(1, 0x0F)]) (·.i) = some 0x4B := by decide
/-- [M6]. -/
theorem test_ldF_fault : faultOf (exec (.ldF 1) (withV [(1, 0x10)])) = some (.invalidGlyphIndex 0x10) := by
  decide
/-- [M7, 156; M8]. -/
theorem test_ldB : after (.ldB 1) (setI 0x300 (withV [(1, 156)])) (fun t => Memory.readBytes t.mem 0x300 3) =
    some [1, 5, 6] ∧
    after (.ldB 1) (setI 0xFFD (withV [(1, 123)])) (fun t => Memory.readBytes t.mem 0xFFD 3) = some [1, 2, 3] := by
  decide
/-- [M9]. -/
theorem test_ldB_fault : faultOf (exec (.ldB 1) (setI 0xFFE (withV [(1, 123)]))) = some (.memoryOutOfRange 0x1000) := by
  decide
/-- [M10]. -/
theorem test_ldMem :
    after (.ldMem 3) (setI 0x400 (withV [(0, 0x11), (1, 0x22), (2, 0x33), (3, 0x44), (4, 0x55)]))
      (fun t => (Memory.readBytes t.mem 0x400 5, t.i)) = some ([0x11, 0x22, 0x33, 0x44, 0], 0x400) := by decide
/-- [M13]. -/
theorem test_ldMem_fault : faultOf (exec (.ldMem 15) (setI 0xFF1 State.reset)) = some (.memoryOutOfRange 0x1000) := by
  decide
/-- [M14]. -/
theorem test_ldVxMem :
    after (.ldVxMem 2) (setI 0x400 (withMem 0x400 [0xAA, 0xBB, 0xCC, 0xDD] (withV [(3, 0x99)])))
      (fun t => (getV t 0, getV t 1, getV t 2, getV t 3, t.i)) = some (0xAA, 0xBB, 0xCC, 0x99, 0x400) := by decide
/-- [M17]. -/
theorem test_ldVxMem_fault : faultOf (exec (.ldVxMem 0) (setI 0x10FE State.reset)) = some (.memoryOutOfRange 0x10FE) := by
  decide

/-! ### Display -/

/-- [D1]. -/
theorem test_cls : after .cls (setFb (BitVec.allOnes 2048) (withV [(VF, 1)])) (fun t => (t.fb, getV t VF)) =
    some (0, 1) := by decide +kernel
/-- Wrap in x [D4]: exactly the eight pixels. -/
theorem test_drw_wraps : after (.drw 0 1 1) (setI 0x300 (withMem 0x300 [0xFF] (withV [(0, 60)]))) (fun t => (t.fb, getV t VF)) =
    some (0xF00000000000000F#2048, 0) := by decide +kernel
/-- The second draw of D7: the framebuffer is clear again and VF = 1. -/
theorem test_drw_collides :
    after (.drw 0 1 1) (setFb 3#2048 (setI 0x300 (withMem 0x300 [0xC0] State.reset))) (fun t => (t.fb, getV t VF)) =
      some (0, 1) := by decide +kernel

/-! ### Keypad and timers -/

/-- [T1, T2]. -/
theorem test_skp : after (.skp 2) (withKeys [5] (withV [(2, 5)])) (·.pc) = some 0x204 ∧
    after (.skp 2) (withV [(2, 5)]) (·.pc) = some 0x202 := by decide
/-- [T5]. -/
theorem test_skp_fault : faultOf (exec (.skp 2) (withV [(2, 0x10)])) = some (.invalidKeyIndex 0x10) := by decide
/-- [T3, T4]. -/
theorem test_sknp : after (.sknp 2) (withV [(2, 5)]) (·.pc) = some 0x204 ∧
    after (.sknp 2) (withKeys [5] (withV [(2, 5)])) (·.pc) = some 0x202 := by decide
/-- [T6]. -/
theorem test_sknp_fault : faultOf (exec (.sknp 2) (withV [(2, 0xFF)])) = some (.invalidKeyIndex 0xFF) := by decide
/-- [T11]. -/
theorem test_ldVxK_waits : after (.ldVxK 3) State.reset (fun t => (t.pc, t.wait)) = some (0x200, true) := by
  decide
/-- [T12]. -/
theorem test_ldVxK_lowest : after (.ldVxK 3) (withKeys [3, 9, 12] State.reset) (fun t => (getV t 3, t.pc, t.wait)) =
    some (3, 0x202, false) := by decide
/-- [T8]. -/
theorem test_ldVxDt : after (.ldVxDt 3) (setDt 0x2A State.reset) (fun t => (getV t 3, t.dt)) = some (0x2A, 0x2A) := by
  decide
/-- [T9]. -/
theorem test_ldDtVx : after (.ldDtVx 3) (withV [(3, 0x3C)]) (fun t => (t.dt, t.st)) = some (0x3C, 0) := by decide
/-- [T10]. -/
theorem test_ldStVx : after (.ldStVx 3) (withV [(3, 5)]) (fun t => (t.dt, t.st)) = some (0, 5) := by decide

/-! ### The host's operations -/

/-- [R4]. -/
theorem test_tick : (hostTick 3 (setDt 5 (setSt 2 State.reset))).dt = 2 ∧
    (hostTick 3 (setDt 5 (setSt 2 State.reset))).st = 0 ∧ (hostTick 1000 (setDt 5 State.reset)).dt = 0 := by
  decide
/-- [R3]. -/
theorem test_load_too_long : hostLoad (List.replicate 3585 0) State.reset = none := by
  unfold hostLoad
  rw [if_neg (by rw [List.length_replicate]; decide)]
/-- The program of P7, third operation: the same fault again, the first one recorded. -/
theorem test_session_faults :
    (performAll [.load [0x80, 0x08], .step, .step, .load []] Session.start).isNone ∧
    (performAll [.load [0x80, 0x08], .step, .step] Session.start).map (fun r => (r.1, r.2.firstFault)) =
      some ([.accepted, .fault (.invalidOpcode 0x8008), .fault (.invalidOpcode 0x8008)],
        some (.invalidOpcode 0x8008)) := by decide

/-! ### Hypotheses that can be met: encoding and the step -/

theorem witness_wellFormed : WellFormed (.drw 0xF 0xF 0xF) = true ∧ WellFormed .cls = true := by decide
theorem witness_decodes : decodeWord 0xFF65#16 = some (.ldVxMem 0xF) ∧ decodeWord 0x00E1#16 = none := by decide
theorem witness_row : (⟨"SHL", 0xF00F, 0x800E⟩ : OpcodeRow) ∈ opcodeTable ∧
    (⟨"SHL", 0xF00F, 0x800E⟩ : OpcodeRow).covers 0x8FFE#16 = true := by decide
theorem witness_invalid : InvalidWord 0x00EF#16 ∧ InvalidWord 0x5FF1#16 ∧ InvalidWord 0x8FFF#16 ∧ InvalidWord 0x900F#16 ∧
    InvalidWord 0xE0A2#16 ∧ InvalidWord 0xFFFF#16 := by
  refine ⟨.inl ?_, .inr (.inl ?_), .inr (.inr (.inl ?_)), .inr (.inr (.inr (.inl ?_))),
    .inr (.inr (.inr (.inr (.inl ?_)))), .inr (.inr (.inr (.inr (.inr ?_))))⟩ <;> decide
theorem witness_pc_edges : 4094 < (atPc 0x0FFF State.reset).pc.toNat ∧ (atPc 0x0FFE State.reset).pc.toNat ≤ 4094 := by
  decide
theorem witness_step_runs : (atPc 0x0FFE (withMem 0xFFE [0x60, 0x07] State.reset)).pc.toNat ≤ 4094 ∧
    decode [Memory.read (withMem 0xFFE [0x60, 0x07] State.reset).mem 0xFFE,
      Memory.read (withMem 0xFFE [0x60, 0x07] State.reset).mem 0xFFF] = .ok (.ldKk 0 7, []) := by decide
theorem witness_invalid_fetched : fetch State.reset = .ok 0x0000#16 ∧ InvalidWord 0x0000#16 :=
  ⟨rfl, .inl (by decide)⟩

/-- Every clause of which instructions fault is met by a faulting execution. -/
theorem witness_faults : faultOf (exec .ret State.reset) = some .stackUnderflow ∧
    faultOf (exec (.call 0) (atDepth 16 State.reset)) = some .stackOverflow ∧
    faultOf (exec (.ldF 1) (withV [(1, 16)])) = some (.invalidGlyphIndex 16) ∧
    faultOf (exec (.skp 1) (withV [(1, 16)])) = some (.invalidKeyIndex 16) ∧
    faultOf (exec (.drw 0 0 1) (setI 0x1000 State.reset)) = some (.memoryOutOfRange 0x1000) := by decide

/-- Every clause of who writes what is met by an execution that writes it. -/
theorem witness_writers : after (.ldDtVx 1) (withV [(1, 1)]) (·.dt) = some 1 ∧
    after (.ldStVx 1) (withV [(1, 1)]) (·.st) = some 1 ∧ after (.ldI 1) State.reset (·.i) = some 1 ∧
    after (.call 1) State.reset (fun t => (t.sp, t.stack[0])) = some (1, 0x202) ∧
    after (.jp 1) State.reset (·.pc) = some 1 ∧ after (.rnd 1 0) State.reset (·.draws) = some 1 ∧
    after (.ldVxMem 1) State.reset (getV · 1) = some 0x90 ∧
    after (.drw 0 0 1) State.reset (fun t => decide (t.fb = 0)) = some false ∧
    after (.ldB 1) (setI 0x300 (withV [(1, 9)])) (fun t => Memory.read t.mem 0x302) = some 9 ∧
    after (.ldVxK 1) State.reset (·.wait) = some true := by decide +kernel

/-- A flag instruction writes VF, and a plain destination does. -/
theorem witness_vf_writers : after (.addVy 1 1) (withV [(1, 0x80)]) (getV · VF) = some 1 ∧
    after (.drw 0 0 1) (setFb 1 State.reset) (getV · VF) = some 1 ∧
    after (.ldKk VF 7) State.reset (getV · VF) = some 7 := by decide +kernel

/-! ### Hypotheses that can be met: invariants -/

/-- A reset core whose next step completes meets the invariant. -/
theorem witness_invariant : CoreInv (State.reset.withFetchWord 16 0xF30A) ∧
    (nextOf (step (State.reset.withFetchWord 16 0xF30A))).isSome := by
  refine ⟨⟨?_, by decide, by decide, fun h => by cases h⟩, by decide⟩
  exact Memory.writeBytes_wf _ reset_mem_wf (by decide)

/-- AwaitingKey at an Fx0A meets the invariant's last clause. -/
theorem witness_waiting : WaitsAtFx0A { State.reset.withFetchWord 16 0xF30A with wait := true } :=
  fun _ => ⟨3, fetchInstr_of_word (by decide) (by decide)⟩

/-- Keys, registers and draws that differ from reset: reset() puts back the first two and keeps the last. -/
theorem test_reset_from_anywhere :
    (fun t : State => (getV t 1, t.key[(3 : Fin 16)], t.draws))
      (hostReset (countDraw (withKeys [3] (withV [(1, 7)])))) = (0, false, 1) ∧
    (perform .reset ⟨setDt 9 (atDepth 3 State.reset), true, some .stackUnderflow⟩).map
      (fun r => (r.1, r.2.core.dt, r.2.core.sp, r.2.stepped, r.2.firstFault)) = some (.done, 0, 0, false, none) := by
  decide
theorem witness_session : SessionInv Session.start ∧
    (perform (.load [0x12, 0x00]) Session.start).map (·.1) = some .accepted := by
  refine ⟨⟨⟨reset_mem_wf, by decide, by decide, fun h => by cases h⟩, fun _ => rfl⟩, by decide⟩

theorem witness_write : (0x300 : Nat) ≤ 4095 ∧ Memory.wf State.reset.mem ∧ (0x301 : Nat) ≠ 0x300 :=
  ⟨by decide, reset_mem_wf, by decide⟩

/-! ### Hypotheses that can be met: instructions, each clause at the edge of its range -/

theorem witness_ret : State.reset.sp = 0 ∧ 0 < (atDepth 1 State.reset).sp.val ∧ 0 < (atDepth 16 State.reset).sp.val := by
  decide
theorem witness_call : (atDepth 16 State.reset).sp = 16 ∧ (atDepth 15 State.reset).sp.val < 16 := by decide
theorem witness_skip_registers : getV (withV [(1, 7)]) 1 = 7 ∧ getV (withV [(1, 7)]) 1 ≠ 8 ∧
    getV (withV [(1, 7)]) 1 ≠ getV (withV [(1, 7)]) 2 ∧ getV (withV [(1, 7), (2, 7)]) 1 = getV (withV [(1, 7), (2, 7)]) 2 := by
  decide
theorem witness_ldF : (getV (withV [(1, 15)]) 1).toNat ≤ 15 ∧ 15 < (getV (withV [(1, 16)]) 1).toNat := by decide
theorem witness_ldB : (setI 0xFFD State.reset).i.toNat + 2 ≤ 4095 ∧ 4095 < (setI 0xFFE State.reset).i.toNat + 2 := by
  decide
theorem witness_block : (setI 0xFF0 State.reset).i.toNat + (15#4).toNat ≤ 4095 ∧
    4095 < (setI 0xFF1 State.reset).i.toNat + (15#4).toNat := by decide
theorem witness_drw_ranges : (0#4).toNat = 0 ∨ (setI 0xFFFF State.reset).i.toNat + (0#4).toNat - 1 ≤ 4095 := by decide
theorem witness_drw_last_byte : (1#4).toNat = 0 ∨ (setI 0xFFF State.reset).i.toNat + (1#4).toNat - 1 ≤ 4095 := by decide
theorem witness_drw_fault : 0 < (2#4).toNat ∧ 4095 < (setI 0xFFF State.reset).i.toNat + (2#4).toNat - 1 := by decide

/-- Glyph 0 at (0, 0): its bit at the corner lands on pixel (0, 0), none on (31, 63); with that pixel set it collides. -/
theorem witness_sprite : SpriteBitAt State.reset 0 0 1 0 0 ∧ ¬ SpriteBitAt State.reset 0 0 1 31 63 ∧
    SpriteCollides (setFb 1 State.reset) 0 0 1 ∧ ¬ SpriteCollides State.reset 0 0 1 := by
  refine ⟨⟨0, by decide, 0, by decide, by decide +kernel, by decide +kernel, by decide +kernel⟩, ?_, ⟨0, 0, ?_, by decide +kernel⟩, ?_⟩
  · rintro ⟨k, hk, b, hb, _, hr, _⟩
    have hk : k < 1 := hk
    have hr : 31 = (0 + k) % 32 := hr
    omega
  · exact ⟨0, by decide, 0, by decide, by decide +kernel, by decide +kernel, by decide +kernel⟩
  · rintro ⟨row, col, _, hp⟩
    simp [pixel, State.reset] at hp

theorem witness_draw_twice : (0x0#4 : RegIdx) ≠ VF ∧ (0x1#4 : RegIdx) ≠ VF ∧
    (nextOf (exec (.drw 0x0#4 0x1#4 0x5#4) State.reset)).isSome := by decide
theorem witness_keys : (getV (withKeys [15] (withV [(2, 15)])) 2).toNat = (15 : Fin 16).val ∧
    (withKeys [15] (withV [(2, 15)])).key[(15 : Fin 16)] = true ∧ State.reset.key[(15 : Fin 16)] = false ∧
    15 < (getV (withV [(2, 16)]) 2).toNat := by decide
theorem witness_wait : (∀ k : Fin 16, State.reset.key[k] = false) ∧ (withKeys [3, 9] State.reset).key[(3 : Fin 16)] = true ∧
    (∀ j : Fin 16, j < 3 → (withKeys [3, 9] State.reset).key[j] = false) := by decide
theorem witness_tick : (5 : Nat) ≤ (setDt 5 State.reset).dt.toNat ∧ (setDt 5 State.reset).dt.toNat < 6 ∧
    (5 : Nat) ≤ (setSt 5 State.reset).st.toNat ∧ (setSt 5 State.reset).st.toNat < 6 := by decide
theorem witness_load : (List.replicate 3584 (0 : Byte)).length ≤ 3584 ∧ 3584 < (List.replicate 3585 (0 : Byte)).length :=
  ⟨List.length_replicate.le, by rw [List.length_replicate]; decide⟩
theorem witness_reset_memory : (0x4F : Nat) < font.length ∧ 0x050 ≤ (0xFFF : Nat) ∧ (31 : Nat) < 32 ∧ (63 : Nat) < 64 := by
  decide
theorem witness_fault_repeats : faultOf (step State.reset) = some (.invalidOpcode 0) ∧
    (perform .step Session.start).map (·.1) = some (.fault (.invalidOpcode 0)) ∧
    Session.start.firstFault = none ∧ (⟨State.reset, true, some .stackUnderflow⟩ : Session).firstFault ≠ none := by
  decide

end Sys2Proof.Tests
end

section
/-! The host's set_keys (40_step_cycle.md R83): the level of every key after it, and its frame. -/

namespace Sys2Proof.Machine

/-- The old levels do not show in the new ones: no edge, no debounce (R83). -/
theorem keyDown_setKey (keys : Vector Bool 16) (s : State) (k : Fin 16) : keyDown (setKey keys s) k.val = keys[k] := by
  rw [keyDown_eq _ _ k.isLt]
  simp

/-- Piece by piece, the keypad is the only one that `setKey` writes. -/
theorem setKey_onlyChanges_key (keys : Vector Bool 16) (s : State) : OnlyChanges [.key] s (setKey keys s) := by
  intro p hp
  cases p with
  | key => simp at hp
  | stack => exact ⟨setKey_sp s keys, setKey_stack s keys⟩
  | v | i | pc | dt | st | fb | mem | wait | draws => simp [Same]

/-- Settles O54: set_keys is `setKey`, whose levels and frame are the two lemmas above. -/
theorem setKeysReplacesAllKeys : Obligations.SetKeysReplacesAllKeys := fun keys s =>
  ⟨keyDown_setKey keys s, setKey_onlyChanges_key keys s⟩

end Sys2Proof.Machine
end

section
/-! Control transfer (41_flow.md): what committing PC and WAIT leaves unchanged, and JP nnn. -/

namespace Sys2Proof.Machine

/-- The zero extension of an address keeps its value (R64). -/
@[simp] theorem addrOf_toNat (nnn : Addr12) : (addrOf nnn).toNat = nnn.toNat :=
  BitVec.toNat_setWidth_of_le (by decide)

/-- Piece by piece, PC and WAIT are all that the commit of a step writes (R85). -/
theorem commit_onlyChanges_pc_wait (pc : Word) (waiting : Bool) (s : State) :
    OnlyChanges [.pc, .wait] s (commit pc waiting s) := by
  intro p hp
  cases p with
  | pc | wait => simp at hp
  | stack => exact ⟨commit_sp s pc waiting, commit_stack s pc waiting⟩
  | v | i | dt | st | key | fb | mem | draws => simp [Same]

/-- Family 1 is JP, whatever its low 12 bits (R66). -/
theorem decodeWord_jp (nnn : Addr12) : decodeWord (wordNnn 0x1 nnn) = some (.jp nnn) := by
  simp [decodeWord]

/-- The whole of JP is the commit of its target (R101). -/
theorem exec_jp (nnn : Addr12) (s : State) : exec (.jp nnn) s = .next (commit (addrOf nnn) false s) := rfl

/-- Settles O19: 1nnn decodes to JP nnn, whose step is a commit of PC and WAIT. -/
theorem jpSetsPc : Obligations.JpSetsPc := fun nnn s =>
  ⟨decodeWord_jp nnn, commit (addrOf nnn) false s, exec_jp nnn s, addrOf_toNat nnn, rfl,
    commit_onlyChanges_pc_wait (addrOf nnn) false s⟩

end Sys2Proof.Machine
end

section
/-! Conditional skips on registers (42_skip.md): what a skip does once for all of them, and 3xkk, 4xkk, 5xy0. -/

namespace Sys2Proof.Machine

/-- A skip always completes, by one write of PC that its condition chooses (R86). -/
theorem skipIf_completes (c : Bool) (s : State) :
    ∃ t, skipIf c s = .next t ∧ (c = true → t.pc = s.pc + 4) ∧ (c = false → t.pc = s.pc + 2) ∧ t.wait = false ∧
      OnlyChanges [.pc, .wait] s t :=
  ⟨commit (if c then s.pc + 4 else s.pc + 2) false s, rfl, fun hc => by simp [hc], fun hc => by simp [hc], rfl,
    commit_onlyChanges_pc_wait _ false s⟩

/-! ### Decoding (R66) -/

/-- Family 3 is SE Vx, kk, whatever its fields. -/
theorem decodeWord_seKk (x : RegIdx) (kk : Byte) : decodeWord (wordXkk 0x3 x kk) = some (.seKk x kk) := by
  simp [decodeWord]

/-- Family 4 is SNE Vx, kk, whatever its fields. -/
theorem decodeWord_sneKk (x : RegIdx) (kk : Byte) : decodeWord (wordXkk 0x4 x kk) = some (.sneKk x kk) := by
  simp [decodeWord]

/-- In family 5 only the low nibble 0 is an instruction (R68). -/
theorem decodeWord_family5 (x y : RegIdx) (n : Nibble) :
    decodeWord (wordXyn 0x5 x y n) = if n = 0x0#4 then some (.seVy x y) else none := by
  simp [decodeWord]

/-! ### Execution: each is a skip on its own comparison -/

theorem exec_seKk (x : RegIdx) (kk : Byte) (s : State) : exec (.seKk x kk) s = skipIf (getV s x == kk) s := rfl

theorem exec_sneKk (x : RegIdx) (kk : Byte) (s : State) : exec (.sneKk x kk) s = skipIf (getV s x != kk) s := rfl

theorem exec_seVy (x y : RegIdx) (s : State) : exec (.seVy x y) s = skipIf (getV s x == getV s y) s := rfl

/-! ### The obligations -/

/-- Settles O22: 3xkk is a skip on the Boolean test `Vx == kk`. -/
theorem seKkSkips : Obligations.SeKkSkips := fun x kk s =>
  ⟨decodeWord_seKk x kk, by
    simpa only [exec_seKk, beq_iff_eq, beq_eq_false_iff_ne] using skipIf_completes (getV s x == kk) s⟩

/-- Settles O23: 4xkk is a skip on the Boolean test `Vx != kk`. -/
theorem sneKkSkips : Obligations.SneKkSkips := fun x kk s =>
  ⟨decodeWord_sneKk x kk, by
    simpa only [exec_sneKk, bne_iff_ne, bne_eq_false_iff_eq] using skipIf_completes (getV s x != kk) s⟩

/-- Settles O24: the low nibble decides whether the word decodes, and 5xy0 is a skip on the Boolean test `Vx == Vy`. -/
theorem seVySkips : Obligations.SeVySkips := fun x y s =>
  ⟨(decodeWord_family5 x y 0x0).trans (if_pos rfl), fun n hn => (decodeWord_family5 x y n).trans (if_neg hn), by
    simpa only [exec_seVy, beq_iff_eq, beq_eq_false_iff_ne] using skipIf_completes (getV s x == getV s y) s⟩

end Sys2Proof.Machine
end

section
/-! Loads and arithmetic on one register (43_load_alu.md): what writing a register and advancing does, and 6xkk, 7xkk. -/

namespace Sys2Proof.Machine

/-- Piece by piece, the registers are all that `setV` writes (R10, R11). -/
theorem setV_onlyChanges_v (x : RegIdx) (b : Byte) (s : State) : OnlyChanges [.v] s (setV x b s) := by
  intro p hp
  cases p with
  | v => simp at hp
  | stack => exact ⟨setV_sp s x b, setV_stack s x b⟩
  | i | pc | dt | st | key | fb | mem | wait | draws => simp [Same]

/-- Agreement on a piece carries from one change of state to the next. -/
theorem Same.trans {p : Part} {s t u : State} (hst : Same p s t) (htu : Same p t u) : Same p s u := by
  cases p with
  | v | mem => exact fun k => (htu k).trans (hst k)
  | stack => exact ⟨htu.1.trans hst.1, htu.2.trans hst.2⟩
  | i | pc | dt | st | key | fb | wait | draws => exact Eq.trans htu hst

/-- The frame of two changes in a row is the pieces of the first with those of the second. -/
theorem OnlyChanges.append {ps qs : List Part} {s t u : State} (hst : OnlyChanges ps s t) (htu : OnlyChanges qs t u) :
    OnlyChanges (ps ++ qs) s u := fun p hp =>
  (hst p fun h => hp (List.mem_append_left qs h)).trans (htu p fun h => hp (List.mem_append_right ps h))

/-- An instruction that ends by writing Vx and advancing always completes, and touches nothing but Vx, PC and WAIT
(R85, R86). -/
theorem advance_setV_completes (x : RegIdx) (b : Byte) (s : State) :
    ∃ t, advance (setV x b s) = .next t ∧ (∀ r, getV t r = if r = x then b else getV s r) ∧
      t.pc = s.pc + 2 ∧ t.wait = false ∧ OnlyChanges [.v, .pc, .wait] s t :=
  ⟨commit (s.pc + 2) false (setV x b s), rfl, fun r => getV_setV s x r b, rfl, rfl,
    (setV_onlyChanges_v x b s).append (commit_onlyChanges_pc_wait (s.pc + 2) false (setV x b s))⟩

/-! ### Decoding (R66) -/

/-- Family 6 is LD Vx, kk, whatever its fields. -/
theorem decodeWord_ldKk (x : RegIdx) (kk : Byte) : decodeWord (wordXkk 0x6 x kk) = some (.ldKk x kk) := by
  simp [decodeWord]

/-- Family 7 is ADD Vx, kk, whatever its fields. -/
theorem decodeWord_addKk (x : RegIdx) (kk : Byte) : decodeWord (wordXkk 0x7 x kk) = some (.addKk x kk) := by
  simp [decodeWord]

/-! ### Execution: each is one write of Vx -/

theorem exec_ldKk (x : RegIdx) (kk : Byte) (s : State) : exec (.ldKk x kk) s = advance (setV x kk s) := rfl

theorem exec_addKk (x : RegIdx) (kk : Byte) (s : State) :
    exec (.addKk x kk) s = advance (setV x (getV s x + kk) s) := rfl

/-! ### The obligations -/

/-- Settles O26: 6xkk writes kk to Vx and advances. -/
theorem ldKkLoads : Obligations.LdKkLoads := fun x kk s =>
  ⟨decodeWord_ldKk x kk, by simpa only [exec_ldKk] using advance_setV_completes x kk s⟩

/-- Settles O27: 7xkk writes the byte sum to Vx and advances; addition of bytes is addition modulo 256, and the write
reaches VF only when x is F. -/
theorem addKkWraps : Obligations.AddKkWraps := fun x kk s => by
  obtain ⟨t, hexec, hv, hpc, hwait, hframe⟩ := advance_setV_completes x (getV s x + kk) s
  have hx : getV t x = getV s x + kk := (hv x).trans (if_pos rfl)
  have hsum : (getV t x).toNat = ((getV s x).toNat + kk.toNat) % 256 := by
    rw [hx, BitVec.toNat_add]
  exact ⟨decodeWord_addKk x kk, t, (exec_addKk x kk s).trans hexec, hsum, fun r hr => (hv r).trans (if_neg hr),
    hpc, hwait, hframe⟩

end Sys2Proof.Machine
end

section
/-! The index register (44_index_memory.md): what writing I and advancing does, and Annn, Fx29. -/

namespace Sys2Proof.Machine

/-- Piece by piece, I is all that `setI` writes (R21). -/
theorem setI_onlyChanges_i (w : Word) (s : State) : OnlyChanges [.i] s (setI w s) := by
  intro p hp
  cases p with
  | i => simp at hp
  | stack => exact ⟨setI_sp s w, setI_stack s w⟩
  | v | pc | dt | st | key | fb | mem | wait | draws => simp [Same]

/-- An instruction that ends by writing I and advancing always completes, and touches nothing but I, PC and WAIT
(R85, R86). -/
theorem advance_setI_completes (w : Word) (s : State) :
    ∃ t, advance (setI w s) = .next t ∧ t.i = w ∧ t.pc = s.pc + 2 ∧ t.wait = false ∧
      OnlyChanges [.i, .pc, .wait] s t :=
  ⟨commit (s.pc + 2) false (setI w s), rfl, rfl, rfl, rfl,
    (setI_onlyChanges_i w s).append (commit_onlyChanges_pc_wait (s.pc + 2) false (setI w s))⟩

/-! ### Digits and their glyphs (R142) -/

/-- A byte up to 15 is its own index; the whole byte is tested, not its low nibble. -/
theorem indexOf_of_le {b : Byte} (hb : b.toNat ≤ 15) : indexOf b = some b.toNat := if_pos hb

/-- A byte above 15 indexes nothing. -/
theorem indexOf_of_gt {b : Byte} (hb : 15 < b.toNat) : indexOf b = none := if_neg (Nat.not_le_of_gt hb)

/-- The sixteen glyphs start five bytes apart from address 0, with no wrap-around. -/
theorem glyphAddr_toNat {d : Nat} (hd : d ≤ 15) : (glyphAddr d).toNat = d * 5 :=
  Nat.mod_eq_of_lt (show d * 5 < 2 ^ 16 by omega)

/-! ### Decoding (R66) -/

/-- Family A is LD I, nnn, whatever its low 12 bits. -/
theorem decodeWord_ldI (nnn : Addr12) : decodeWord (wordNnn 0xA nnn) = some (.ldI nnn) := by
  simp [decodeWord]

/-- Family F is selected by the low byte, whatever the register. -/
theorem decodeWord_familyF (x : RegIdx) (kk : Byte) : decodeWord (wordXkk 0xF x kk) = decodeFamilyF x kk := by
  simp [decodeWord]

/-! ### Execution: each is one write of I, unless Fx29 faults -/

theorem exec_ldI (nnn : Addr12) (s : State) : exec (.ldI nnn) s = advance (setI (addrOf nnn) s) := rfl

theorem exec_ldF (x : RegIdx) (s : State) : exec (.ldF x) s = execLdF x s := rfl

/-- On a digit, Fx29 points I at its glyph. -/
theorem exec_ldF_of_le {x : RegIdx} {s : State} (hx : (getV s x).toNat ≤ 15) :
    exec (.ldF x) s = advance (setI (glyphAddr (getV s x).toNat) s) := by
  rw [exec_ldF, execLdF, indexOf_of_le hx]

/-- Above 15 there is no glyph and Fx29 faults with the whole byte (R174). -/
theorem exec_ldF_of_gt {x : RegIdx} {s : State} (hx : 15 < (getV s x).toNat) :
    exec (.ldF x) s = .fault (.invalidGlyphIndex (getV s x)) := by
  rw [exec_ldF, execLdF, indexOf_of_gt hx, raise]

/-! ### The obligations -/

/-- Settles O38: Annn writes the zero-extended address to I and advances. -/
theorem ldILoads : Obligations.LdILoads := fun nnn s => by
  obtain ⟨t, hexec, hi, hpc, hwait, hframe⟩ := advance_setI_completes (addrOf nnn) s
  have hnnn : t.i.toNat = nnn.toNat := by rw [hi, addrOf_toNat]
  exact ⟨decodeWord_ldI nnn, t, (exec_ldI nnn s).trans hexec, hnnn, hpc, hwait, hframe⟩

/-- Settles O40: the index check on the whole of Vx separates the fault from the write of the glyph's address to I. -/
theorem ldFPointsAtGlyph : Obligations.LdFPointsAtGlyph := fun x s => by
  refine ⟨(decodeWord_familyF x 0x29).trans rfl, exec_ldF_of_gt, fun hx => ?_⟩
  obtain ⟨t, hexec, hi, hpc, hwait, hframe⟩ := advance_setI_completes (glyphAddr (getV s x).toNat) s
  have hglyph : t.i.toNat = (getV s x).toNat * 5 := by rw [hi, glyphAddr_toNat hx]
  exact ⟨t, (exec_ldF_of_le hx).trans hexec, hglyph, hpc, hwait, hframe⟩

end Sys2Proof.Machine
end

section
/-! The display (45_display.md): what writing the framebuffer and advancing does, and 00E0. -/

namespace Sys2Proof.Machine

/-- Piece by piece, the framebuffer is all that `setFb` writes (R33). -/
theorem setFb_onlyChanges_fb (fb : Framebuffer) (s : State) : OnlyChanges [.fb] s (setFb fb s) := by
  intro p hp
  cases p with
  | fb => simp at hp
  | stack => exact ⟨setFb_sp s fb, setFb_stack s fb⟩
  | v | i | pc | dt | st | key | mem | wait | draws => simp [Same]

/-- An instruction that ends by writing the framebuffer and advancing always completes, and touches nothing but the
framebuffer, PC and WAIT (R85, R86). -/
theorem advance_setFb_completes (fb : Framebuffer) (s : State) :
    ∃ t, advance (setFb fb s) = .next t ∧ t.fb = fb ∧ t.pc = s.pc + 2 ∧ t.wait = false ∧
      OnlyChanges [.fb, .pc, .wait] s t :=
  ⟨commit (s.pc + 2) false (setFb fb s), rfl, rfl, rfl, rfl,
    (setFb_onlyChanges_fb fb s).append (commit_onlyChanges_pc_wait (s.pc + 2) false (setFb fb s))⟩

/-- The all-zero framebuffer has no pixel set. -/
@[simp] theorem pixel_zero (row col : Nat) : pixel 0 row col = false := BitVec.getLsbD_zero

/-- The word 00E0 is CLS (R66). -/
theorem decodeWord_cls : decodeWord 0x00E0#16 = some .cls := by decide

/-- The whole of CLS is one write of the framebuffer. -/
theorem exec_cls (s : State) : exec .cls s = advance (setFb 0 s) := rfl

/-- Settles O44: 00E0 writes the all-zero framebuffer, whatever it held, and advances. -/
theorem clsClearsEveryPixel : Obligations.ClsClearsEveryPixel := by
  refine ⟨decodeWord_cls, fun s => ?_⟩
  obtain ⟨t, hexec, hfb, hpc, hwait, hframe⟩ := advance_setFb_completes 0 s
  have hclear : ∀ row col, pixel t.fb row col = false := fun row col => by rw [hfb, pixel_zero]
  exact ⟨t, (exec_cls s).trans hexec, fun row col _ _ => hclear row col, hpc, hwait, hframe⟩

end Sys2Proof.Machine
end

section
/-! Keypad and timers (46_keypad_timers.md): which key Fx0A takes, what waiting leaves unchanged, and Fx0A. -/

namespace Sys2Proof.Machine

/-- A key that is down, with every lower key up, is the one that `lowestKey` finds (R162): the converse of
`lowestKey_some`, said of the keypad latch. -/
theorem lowestKey_of_least {s : State} {k : Fin 16} (hk : s.key[k] = true)
    (hleast : ∀ j : Fin 16, j < k → s.key[j] = false) : lowestKey s = some k.val := by
  refine List.find?_range_eq_some.mpr ⟨(keyDown_eq s k k.isLt).trans hk, List.mem_range.mpr k.isLt, fun j hj => ?_⟩
  have hj16 : j < 16 := hj.trans k.isLt
  have hup : keyDown s j = false := (keyDown_eq s j hj16).trans (hleast ⟨j, hj16⟩ hj)
  rw [hup, Bool.not_false]

/-- The number of a key fits in a byte. -/
theorem keyByte_toNat (k : Fin 16) : (BitVec.ofNat 8 k.val).toNat = k.val :=
  Nat.mod_eq_of_lt (show k.val < 2 ^ 8 by omega)

/-- A commit that keeps PC where it is writes WAIT alone (R87). -/
theorem commit_pc_onlyChanges_wait (waiting : Bool) (s : State) :
    OnlyChanges [.wait] s (commit s.pc waiting s) := by
  intro p hp
  by_cases hpc : p = .pc
  · subst hpc
    exact commit_pc s s.pc waiting
  · exact commit_onlyChanges_pc_wait s.pc waiting s p (List.not_mem_cons_of_ne_of_not_mem hpc hp)

/-! ### Execution: Fx0A waits, or is one write of Vx -/

theorem exec_ldVxK (x : RegIdx) (s : State) : exec (.ldVxK x) s = execLdVxK x s := rfl

/-- With every key up, Fx0A commits the old PC and WAIT 1. -/
theorem exec_ldVxK_of_none {x : RegIdx} {s : State} (h : lowestKey s = none) :
    exec (.ldVxK x) s = .next (commit s.pc true s) := by
  rw [exec_ldVxK, execLdVxK, h, keepWaiting]

/-- With a key down, Fx0A writes the lowest to Vx and advances. -/
theorem exec_ldVxK_of_some {x : RegIdx} {s : State} {k : Nat} (h : lowestKey s = some k) :
    exec (.ldVxK x) s = advance (setV x (BitVec.ofNat 8 k) s) := by
  rw [exec_ldVxK, execLdVxK, h]

/-! ### The obligation -/

/-- Settles O49: what `lowestKey` finds separates the wait from the write of the least key's number to Vx. -/
theorem ldVxKWaitsOrLoads : Obligations.LdVxKWaitsOrLoads := fun x s => by
  refine ⟨(decodeWord_familyF x 0x0A).trans rfl, fun hup => ?_, fun k hk hleast => ?_⟩
  · exact ⟨commit s.pc true s, exec_ldVxK_of_none (lowestKey_none_key.mpr hup), rfl, commit_pc_onlyChanges_wait true s⟩
  · obtain ⟨t, hexec, hv, hpc, hwait, hframe⟩ := advance_setV_completes x (BitVec.ofNat 8 k.val) s
    have hx : (getV t x).toNat = k.val := by rw [hv, if_pos rfl, keyByte_toNat]
    exact ⟨t, (exec_ldVxK_of_some (lowestKey_of_least hk hleast)).trans hexec, hx,
      fun r hr => (hv r).trans (if_neg hr), hpc, hwait, hframe⟩

end Sys2Proof.Machine
end

section
/-! Reset (70_reset_and_hazards.md R200, R201): what the reset state holds, and how far reset() is that state. -/

namespace Sys2Proof.Machine

/-! ### The bytes of memory at reset -/

/-- FONT is 80 bytes long, whichever bytes it holds (R22, log entry 1). -/
theorem font_length : font.length = 80 := rfl

/-- Inside FONT an address holds the font's byte. -/
theorem resetByte_of_lt {a : Nat} (h : a < font.length) : resetByte a = font[a] := List.getD_eq_getElem font 0 h

/-- Above FONT an address holds 0x00. -/
theorem resetByte_of_ge {a : Nat} (h : 0x050 ≤ a) : resetByte a = 0 :=
  List.getD_eq_default font 0 (font_length.le.trans h)

/-! ### The reset state, read through the accessors -/

@[simp] theorem getV_reset (r : RegIdx) : getV State.reset r = 0 := Vector.getElem_replicate r.isLt

theorem stack_reset (k : Fin 16) : State.reset.stack[k] = 0 := Vector.getElem_replicate k.isLt

@[simp] theorem read_reset (a : Nat) : Memory.read State.reset.mem a = resetByte a := Memory.read_nil a

/-- No key is down, and a number above 15 is no key. -/
@[simp] theorem keyDown_reset (k : Nat) : keyDown State.reset k = false := by
  by_cases hk : k < 16
  · rw [keyDown_eq State.reset k hk]
    exact Vector.getElem_replicate hk
  · rw [keyDown, Vector.getElem?_eq_none (Nat.le_of_not_lt hk), Option.getD_none]

/-- Piece by piece, the count of draws is the only one in which what reset() makes of a state differs from the reset
state (R81, log entry 3). -/
theorem hostReset_onlyChanges_draws (s : State) : OnlyChanges [.draws] State.reset (hostReset s) := by
  intro p hp
  cases p with
  | draws => simp at hp
  | v | mem => exact fun _ => rfl
  | stack => exact ⟨rfl, rfl⟩
  | i | pc | dt | st | key | fb | wait => rfl

/-- Settles O13: the accessors' values at reset, and the frame of reset(). The remaining fields are written out in
`State.reset`. -/
theorem resetValues : Obligations.ResetValues := by
  have hfont : ∀ (a : Nat) (h : a < font.length), Memory.read State.reset.mem a = font[a] := fun a h =>
    (read_reset a).trans (resetByte_of_lt h)
  have hzero : ∀ a, 0x050 ≤ a → a ≤ 0xFFF → Memory.read State.reset.mem a = 0 := fun a h _ =>
    (read_reset a).trans (resetByte_of_ge h)
  exact ⟨getV_reset, rfl, rfl, rfl, stack_reset, rfl, rfl, keyDown_reset, fun row col _ _ => pixel_zero row col,
    font_length, hfont, hzero, rfl, fun s p hp => hostReset_onlyChanges_draws s p fun h => hp (List.mem_singleton.mp h)⟩

end Sys2Proof.Machine
end

section
/-! Decoding and encoding (30_encoding.md): the decoder on every instruction's word, the instruction of every word that
decodes, and the opcode map. -/

namespace Sys2Proof

open Sys2Proof.Machine

/-! ### The words of the instructions decode to them (R66) -/

/-- The word 00EE is RET. -/
theorem decodeWord_ret : decodeWord 0x00EE#16 = some .ret := by decide

/-- Family 2 is CALL nnn, whatever its low 12 bits. -/
theorem decodeWord_call (nnn : Addr12) : decodeWord (wordNnn 0x2 nnn) = some (.call nnn) := by
  simp [decodeWord]

/-- Family 8 is selected by the low nibble, whatever the registers. -/
theorem decodeWord_family8 (x y : RegIdx) (n : Nibble) : decodeWord (wordXyn 0x8 x y n) = decodeFamily8 x y n := by
  simp [decodeWord]

/-- In family 9 only the low nibble 0 is an instruction (decision D26). -/
theorem decodeWord_family9 (x y : RegIdx) (n : Nibble) :
    decodeWord (wordXyn 0x9 x y n) = if n = 0x0#4 then some (.sneVy x y) else none := by
  simp [decodeWord]

/-- Family B is JP V0, nnn, whatever its low 12 bits. -/
theorem decodeWord_jpV0 (nnn : Addr12) : decodeWord (wordNnn 0xB nnn) = some (.jpV0 nnn) := by
  simp [decodeWord]

/-- Family C is RND Vx, kk, whatever its fields. -/
theorem decodeWord_rnd (x : RegIdx) (kk : Byte) : decodeWord (wordXkk 0xC x kk) = some (.rnd x kk) := by
  simp [decodeWord]

/-- Family D is DRW Vx, Vy, n, whatever its fields. -/
theorem decodeWord_drw (x y : RegIdx) (n : Nibble) : decodeWord (wordXyn 0xD x y n) = some (.drw x y n) := by
  simp [decodeWord]

/-- Family E is selected by the low byte, whatever the register. -/
theorem decodeWord_familyE (x : RegIdx) (kk : Byte) : decodeWord (wordXkk 0xE x kk) = decodeFamilyE x kk := by
  simp [decodeWord]

/-- Every instruction's word decodes to it: the family selects the format, and in families 5, 8, 9, E and F the fixed
nibble or byte selects the instruction. -/
theorem decodeWord_encode (i : Instr) : decodeWord (encode i) = some i := by
  cases i with
  | cls => exact decodeWord_cls
  | ret => exact decodeWord_ret
  | jp nnn => exact decodeWord_jp nnn
  | call nnn => exact decodeWord_call nnn
  | seKk x kk => exact decodeWord_seKk x kk
  | sneKk x kk => exact decodeWord_sneKk x kk
  | seVy x y => exact decodeWord_family5 x y 0x0
  | ldKk x kk => exact decodeWord_ldKk x kk
  | addKk x kk => exact decodeWord_addKk x kk
  | ldVy x y => exact decodeWord_family8 x y 0x0
  | orVy x y => exact decodeWord_family8 x y 0x1
  | andVy x y => exact decodeWord_family8 x y 0x2
  | xorVy x y => exact decodeWord_family8 x y 0x3
  | addVy x y => exact decodeWord_family8 x y 0x4
  | sub x y => exact decodeWord_family8 x y 0x5
  | shr x y => exact decodeWord_family8 x y 0x6
  | subn x y => exact decodeWord_family8 x y 0x7
  | shl x y => exact decodeWord_family8 x y 0xE
  | sneVy x y => exact decodeWord_family9 x y 0x0
  | ldI nnn => exact decodeWord_ldI nnn
  | jpV0 nnn => exact decodeWord_jpV0 nnn
  | rnd x kk => exact decodeWord_rnd x kk
  | drw x y n => exact decodeWord_drw x y n
  | skp x | sknp x => exact decodeWord_familyE x _
  | ldVxDt x | ldVxK x | ldDtVx x | ldStVx x | addI x | ldF x | ldB x | ldMem x | ldVxMem x =>
    exact decodeWord_familyF x _

/-! ### From bytes (R43, R60) -/

/-- Two bytes or more decode exactly when their word does, and the rest is left. -/
theorem decode_cons_cons_ok {hi lo : Byte} {bytes rest : List Byte} {i : Instr} :
    decode (hi :: lo :: bytes) = .ok (i, rest) ↔ decodeWord (wordOfBytes hi lo) = some i ∧ bytes = rest := by
  cases h : decodeWord (wordOfBytes hi lo) <;> simp [decode, h]

/-- Settles O1: the two bytes of an instruction are the bytes of its word, and its word decodes to it. Every
instruction is well formed (`wellFormed_all`), so that hypothesis is not used. -/
theorem decodeOfEncode : Obligations.DecodeOfEncode := fun i rest _ => by
  refine ⟨decode_cons_cons_ok.mpr ⟨?_, rfl⟩, decodeWord_encode i⟩
  rw [wordOfBytes_bytes, decodeWord_encode]

/-! ### Every word is invalid or the word of an instruction -/

theorem wordNnn_of_op {w : Word} {o : Nibble} (ho : opOf w = o) : wordNnn o (nnnOf w) = w :=
  ho ▸ wordNnn_fields w

theorem wordXkk_of_op {w : Word} {o : Nibble} (ho : opOf w = o) : wordXkk o (xOf w) (kkOf w) = w :=
  ho ▸ wordXkk_fields w

theorem wordXkk_of_op_kk {w : Word} {o : Nibble} {kk : Byte} (ho : opOf w = o) (hkk : kkOf w = kk) :
    wordXkk o (xOf w) kk = w := hkk ▸ wordXkk_of_op ho

theorem wordXyn_of_op {w : Word} {o : Nibble} (ho : opOf w = o) : wordXyn o (xOf w) (yOf w) (nOf w) = w :=
  ho ▸ wordXyn_fields w

theorem wordXyn_of_op_n {w : Word} {o n : Nibble} (ho : opOf w = o) (hn : nOf w = n) :
    wordXyn o (xOf w) (yOf w) n = w := hn ▸ wordXyn_of_op ho

/-- In family 8 a word is on the list of R68, or its low nibble is that of an instruction (R67). -/
theorem invalidWord_or_encode_family8 {w : Word} (ho : opOf w = 0x8#4) : InvalidWord w ∨ ∃ i, encode i = w := by
  have hinvalid (h : nOf w ∈ [0x8#4, 0x9#4, 0xA#4, 0xB#4, 0xC#4, 0xD#4, 0xF#4]) : InvalidWord w :=
    .inr (.inr (.inl ⟨ho, h⟩))
  rcases nibble_cases (nOf w) with hn | hn | hn | hn | hn | hn | hn | hn | hn | hn | hn | hn | hn | hn | hn | hn
  · exact .inr ⟨.ldVy (xOf w) (yOf w), wordXyn_of_op_n ho hn⟩
  · exact .inr ⟨.orVy (xOf w) (yOf w), wordXyn_of_op_n ho hn⟩
  · exact .inr ⟨.andVy (xOf w) (yOf w), wordXyn_of_op_n ho hn⟩
  · exact .inr ⟨.xorVy (xOf w) (yOf w), wordXyn_of_op_n ho hn⟩
  · exact .inr ⟨.addVy (xOf w) (yOf w), wordXyn_of_op_n ho hn⟩
  · exact .inr ⟨.sub (xOf w) (yOf w), wordXyn_of_op_n ho hn⟩
  · exact .inr ⟨.shr (xOf w) (yOf w), wordXyn_of_op_n ho hn⟩
  · exact .inr ⟨.subn (xOf w) (yOf w), wordXyn_of_op_n ho hn⟩
  iterate 6 exact .inl (hinvalid (by simp [hn]))
  · exact .inr ⟨.shl (xOf w) (yOf w), wordXyn_of_op_n ho hn⟩
  · exact .inl (hinvalid (by simp [hn]))

/-- In family E a word is on the list of R68, or its low byte is that of an instruction. -/
theorem invalidWord_or_encode_familyE {w : Word} (ho : opOf w = 0xE#4) : InvalidWord w ∨ ∃ i, encode i = w := by
  by_cases h : kkOf w ∈ [0x9E#8, 0xA1#8]
  · simp only [List.mem_cons, List.not_mem_nil, or_false] at h
    rcases h with hkk | hkk
    · exact .inr ⟨.skp (xOf w), wordXkk_of_op_kk ho hkk⟩
    · exact .inr ⟨.sknp (xOf w), wordXkk_of_op_kk ho hkk⟩
  · exact .inl (.inr (.inr (.inr (.inr (.inl ⟨ho, h⟩)))))

/-- In family F a word is on the list of R68, or its low byte is that of an instruction. -/
theorem invalidWord_or_encode_familyF {w : Word} (ho : opOf w = 0xF#4) : InvalidWord w ∨ ∃ i, encode i = w := by
  by_cases h : kkOf w ∈ [0x07#8, 0x0A#8, 0x15#8, 0x18#8, 0x1E#8, 0x29#8, 0x33#8, 0x55#8, 0x65#8]
  · simp only [List.mem_cons, List.not_mem_nil, or_false] at h
    rcases h with hkk | hkk | hkk | hkk | hkk | hkk | hkk | hkk | hkk
    · exact .inr ⟨.ldVxDt (xOf w), wordXkk_of_op_kk ho hkk⟩
    · exact .inr ⟨.ldVxK (xOf w), wordXkk_of_op_kk ho hkk⟩
    · exact .inr ⟨.ldDtVx (xOf w), wordXkk_of_op_kk ho hkk⟩
    · exact .inr ⟨.ldStVx (xOf w), wordXkk_of_op_kk ho hkk⟩
    · exact .inr ⟨.addI (xOf w), wordXkk_of_op_kk ho hkk⟩
    · exact .inr ⟨.ldF (xOf w), wordXkk_of_op_kk ho hkk⟩
    · exact .inr ⟨.ldB (xOf w), wordXkk_of_op_kk ho hkk⟩
    · exact .inr ⟨.ldMem (xOf w), wordXkk_of_op_kk ho hkk⟩
    · exact .inr ⟨.ldVxMem (xOf w), wordXkk_of_op_kk ho hkk⟩
  · exact .inl (.inr (.inr (.inr (.inr (.inr ⟨ho, h⟩)))))

/-- Family by family, a word is on the list of R68 or it is some instruction's word. The decoder has no part in this. -/
theorem invalidWord_or_encode (w : Word) : InvalidWord w ∨ ∃ i, encode i = w := by
  rcases nibble_cases (opOf w) with ho | ho | ho | ho | ho | ho | ho | ho | ho | ho | ho | ho | ho | ho | ho | ho
  · by_cases hcls : w = 0x00E0#16
    · exact .inr ⟨.cls, hcls.symm⟩
    by_cases hret : w = 0x00EE#16
    · exact .inr ⟨.ret, hret.symm⟩
    · exact .inl (.inl ⟨ho, hcls, hret⟩)
  · exact .inr ⟨.jp (nnnOf w), wordNnn_of_op ho⟩
  · exact .inr ⟨.call (nnnOf w), wordNnn_of_op ho⟩
  · exact .inr ⟨.seKk (xOf w) (kkOf w), wordXkk_of_op ho⟩
  · exact .inr ⟨.sneKk (xOf w) (kkOf w), wordXkk_of_op ho⟩
  · by_cases hn : nOf w = 0
    · exact .inr ⟨.seVy (xOf w) (yOf w), wordXyn_of_op_n ho hn⟩
    · exact .inl (.inr (.inl ⟨ho, hn⟩))
  · exact .inr ⟨.ldKk (xOf w) (kkOf w), wordXkk_of_op ho⟩
  · exact .inr ⟨.addKk (xOf w) (kkOf w), wordXkk_of_op ho⟩
  · exact invalidWord_or_encode_family8 ho
  · by_cases hn : nOf w = 0
    · exact .inr ⟨.sneVy (xOf w) (yOf w), wordXyn_of_op_n ho hn⟩
    · exact .inl (.inr (.inr (.inr (.inl ⟨ho, hn⟩))))
  · exact .inr ⟨.ldI (nnnOf w), wordNnn_of_op ho⟩
  · exact .inr ⟨.jpV0 (nnnOf w), wordNnn_of_op ho⟩
  · exact .inr ⟨.rnd (xOf w) (kkOf w), wordXkk_of_op ho⟩
  · exact .inr ⟨.drw (xOf w) (yOf w) (nOf w), wordXyn_of_op ho⟩
  · exact invalidWord_or_encode_familyE ho
  · exact invalidWord_or_encode_familyF ho

/-! ### Invalid words do not decode (R68) -/

/-- The decoder refuses each of the six families' invalid words by its secondary selector. -/
theorem decodeWord_of_invalidWord {w : Word} (h : InvalidWord w) : decodeWord w = none := by
  rcases h with ⟨ho, hcls, hret⟩ | ⟨ho, hn⟩ | ⟨ho, hn⟩ | ⟨ho, hn⟩ | ⟨ho, hkk⟩ | ⟨ho, hkk⟩
  · rw [decodeWord, if_pos ho, decodeFamily0, if_neg hcls, if_neg hret]
  · rw [← wordXyn_of_op (o := 0x5) ho]
    exact (decodeWord_family5 (xOf w) (yOf w) (nOf w)).trans (if_neg hn)
  · rw [← wordXyn_of_op (o := 0x8) ho, decodeWord_family8]
    simp only [List.mem_cons, List.not_mem_nil, or_false] at hn
    rcases hn with hn | hn | hn | hn | hn | hn | hn <;> simp [decodeFamily8, hn]
  · rw [← wordXyn_of_op (o := 0x9) ho]
    exact (decodeWord_family9 (xOf w) (yOf w) (nOf w)).trans (if_neg hn)
  · rw [← wordXkk_of_op (o := 0xE) ho, decodeWord_familyE]
    simp only [List.mem_cons, List.not_mem_nil, or_false, not_or] at hkk
    simp [decodeFamilyE, hkk]
  · rw [← wordXkk_of_op (o := 0xF) ho, decodeWord_familyF]
    simp only [List.mem_cons, List.not_mem_nil, or_false, not_or] at hkk
    simp [decodeFamilyF, hkk]

/-- Settles O4: the words off the list of R68 are instructions' words, and those decode. -/
theorem invalidWordsExactly : Obligations.InvalidWordsExactly := fun w => by
  refine ⟨fun hnone => (invalidWord_or_encode w).resolve_right ?_, decodeWord_of_invalidWord⟩
  rintro ⟨i, rfl⟩
  rw [decodeWord_encode] at hnone
  cases hnone

/-- Settles O2: a word that decodes is not on the list of R68, so it is the word of an instruction, and that is the one
it decodes to. -/
theorem encodeOfDecode : Obligations.EncodeOfDecode := fun w i hi => by
  rcases invalidWord_or_encode w with hinvalid | ⟨j, rfl⟩
  · rw [decodeWord_of_invalidWord hinvalid] at hi
    cases hi
  · rw [decodeWord_encode] at hi
    cases hi
    rfl

/-- Settles O5: each word is read by the decoder. -/
theorem sampleWordsDecode : Obligations.SampleWordsDecode := by
  unfold Obligations.SampleWordsDecode
  decide

/-! ### The opcode map (R66) -/

theorem covers_iff {r : OpcodeRow} {w : Word} : r.covers w = true ↔ w &&& r.mask = r.pattern := beq_iff_eq

/-- The patterns of two rows differ on a bit that both rows look at, unless they are one row. -/
theorem opcodeTable_disjoint : ∀ r₁ ∈ opcodeTable, ∀ r₂ ∈ opcodeTable,
    r₁.pattern &&& r₂.mask = r₂.pattern &&& r₁.mask → r₁ = r₂ := by decide

/-- Rows that match one word have patterns that agree on the bits both look at. -/
theorem row_unique {w : Word} {r₁ r₂ : OpcodeRow} (h₁ : r₁ ∈ opcodeTable) (h₂ : r₂ ∈ opcodeTable)
    (hw₁ : r₁.covers w = true) (hw₂ : r₂.covers w = true) : r₁ = r₂ := by
  refine opcodeTable_disjoint r₁ h₁ r₂ h₂ ?_
  rw [← covers_iff.mp hw₁, ← covers_iff.mp hw₂, BitVec.and_assoc, BitVec.and_assoc, BitVec.and_comm r₁.mask]

/-- Every instruction's word belongs to its row of the map. -/
theorem encodesRow : ∀ i, Laws.EncodesRow.Statement i
  | .cls => Laws.EncodesRow.cls
  | .ret => Laws.EncodesRow.ret
  | .jp nnn => Laws.EncodesRow.jp nnn
  | .call nnn => Laws.EncodesRow.call nnn
  | .seKk x kk => Laws.EncodesRow.seKk x kk
  | .sneKk x kk => Laws.EncodesRow.sneKk x kk
  | .seVy x y => Laws.EncodesRow.seVy x y
  | .ldKk x kk => Laws.EncodesRow.ldKk x kk
  | .addKk x kk => Laws.EncodesRow.addKk x kk
  | .ldVy x y => Laws.EncodesRow.ldVy x y
  | .orVy x y => Laws.EncodesRow.orVy x y
  | .andVy x y => Laws.EncodesRow.andVy x y
  | .xorVy x y => Laws.EncodesRow.xorVy x y
  | .addVy x y => Laws.EncodesRow.addVy x y
  | .sub x y => Laws.EncodesRow.sub x y
  | .shr x y => Laws.EncodesRow.shr x y
  | .subn x y => Laws.EncodesRow.subn x y
  | .shl x y => Laws.EncodesRow.shl x y
  | .sneVy x y => Laws.EncodesRow.sneVy x y
  | .ldI nnn => Laws.EncodesRow.ldI nnn
  | .jpV0 nnn => Laws.EncodesRow.jpV0 nnn
  | .rnd x kk => Laws.EncodesRow.rnd x kk
  | .drw x y n => Laws.EncodesRow.drw x y n
  | .skp x => Laws.EncodesRow.skp x
  | .sknp x => Laws.EncodesRow.sknp x
  | .ldVxDt x => Laws.EncodesRow.ldVxDt x
  | .ldVxK x => Laws.EncodesRow.ldVxK x
  | .ldDtVx x => Laws.EncodesRow.ldDtVx x
  | .ldStVx x => Laws.EncodesRow.ldStVx x
  | .addI x => Laws.EncodesRow.addI x
  | .ldF x => Laws.EncodesRow.ldF x
  | .ldB x => Laws.EncodesRow.ldB x
  | .ldMem x => Laws.EncodesRow.ldMem x
  | .ldVxMem x => Laws.EncodesRow.ldVxMem x

theorem opOf_and (w m : Word) : opOf (w &&& m) = opOf w &&& opOf m := BitVec.extractLsb'_and
theorem nOf_and (w m : Word) : nOf (w &&& m) = nOf w &&& nOf m := BitVec.extractLsb'_and
theorem kkOf_and (w m : Word) : kkOf (w &&& m) = kkOf w &&& kkOf m := BitVec.extractLsb'_and

/-- What a row fixes in each of the families that have invalid words. -/
def RowSelects (r : OpcodeRow) : Prop :=
  opOf r.mask = 0xF#4 ∧
  (opOf r.pattern = 0x0#4 → r.mask = 0xFFFF#16 ∧ (r.pattern = 0x00E0#16 ∨ r.pattern = 0x00EE#16)) ∧
  (opOf r.pattern = 0x5#4 → nOf r.mask = 0xF#4 ∧ nOf r.pattern = 0) ∧
  (opOf r.pattern = 0x8#4 →
    nOf r.mask = 0xF#4 ∧ nOf r.pattern ∉ [0x8#4, 0x9#4, 0xA#4, 0xB#4, 0xC#4, 0xD#4, 0xF#4]) ∧
  (opOf r.pattern = 0x9#4 → nOf r.mask = 0xF#4 ∧ nOf r.pattern = 0) ∧
  (opOf r.pattern = 0xE#4 → kkOf r.mask = 0xFF#8 ∧ kkOf r.pattern ∈ [0x9E#8, 0xA1#8]) ∧
  (opOf r.pattern = 0xF#4 → kkOf r.mask = 0xFF#8 ∧
    kkOf r.pattern ∈ [0x07#8, 0x0A#8, 0x15#8, 0x18#8, 0x1E#8, 0x29#8, 0x33#8, 0x55#8, 0x65#8])

theorem rowSelects_of_mem : ∀ r ∈ opcodeTable, RowSelects r := by unfold RowSelects; decide

/-- A word that a row matches has the row's family, and the row's selector wherever the list of R68 looks at one. -/
theorem not_invalidWord_of_covers {r : OpcodeRow} {w : Word} (hr : r ∈ opcodeTable) (hw : r.covers w = true) :
    ¬ InvalidWord w := by
  obtain ⟨hop, h0, h5, h8, h9, hE, hF⟩ := rowSelects_of_mem r hr
  have hp := (covers_iff.mp hw).symm
  have ho : opOf r.pattern = opOf w := by rw [hp, opOf_and, hop, nibble_and_F]
  have hn (hm : nOf r.mask = 0xF#4) : nOf r.pattern = nOf w := by rw [hp, nOf_and, hm, nibble_and_F]
  have hkk (hm : kkOf r.mask = 0xFF#8) : kkOf r.pattern = kkOf w := by rw [hp, kkOf_and, hm, byte_and_FF]
  rw [ho] at h0 h5 h8 h9 hE hF
  rintro (⟨hw0, hcls, hret⟩ | ⟨hw5, hne⟩ | ⟨hw8, hmem⟩ | ⟨hw9, hne⟩ | ⟨hwE, hnot⟩ | ⟨hwF, hnot⟩)
  · obtain ⟨hm, hpat⟩ := h0 hw0
    have hwhole : r.pattern = w := by rw [hp, hm]; exact BitVec.and_allOnes
    rw [hwhole] at hpat
    exact hpat.elim hcls hret
  · obtain ⟨hm, hsel⟩ := h5 hw5
    exact hne (hn hm ▸ hsel)
  · obtain ⟨hm, hsel⟩ := h8 hw8
    exact hsel (hn hm ▸ hmem)
  · obtain ⟨hm, hsel⟩ := h9 hw9
    exact hne (hn hm ▸ hsel)
  · obtain ⟨hm, hsel⟩ := hE hwE
    exact hnot (hkk hm ▸ hsel)
  · obtain ⟨hm, hsel⟩ := hF hwF
    exact hnot (hkk hm ▸ hsel)

/-- A word that decodes belongs to the row of its instruction. -/
theorem row_of_decodeWord {w : Word} {i : Instr} (hi : decodeWord w = some i) :
    i.row ∈ opcodeTable ∧ i.row.covers w = true := by
  obtain ⟨-, hmem, hcovers⟩ := encodesRow i
  exact ⟨hmem, encodeOfDecode w i hi ▸ hcovers⟩

/-- Settles O3: the rows are told apart bit by bit, an instruction's word belongs to its row, and no row matches a word
on the list of R68. -/
theorem decoderIsTheOpcodeMap : Obligations.DecoderIsTheOpcodeMap := by
  refine ⟨rfl, fun _ _ _ => row_unique, fun _ _ => row_of_decodeWord, fun w => ⟨fun hnone r hr => ?_, fun hall => ?_⟩⟩
  · exact Bool.eq_false_iff.mpr fun hw => not_invalidWord_of_covers hr hw ((invalidWordsExactly w).mp hnone)
  · refine Option.eq_none_iff_forall_ne_some.mpr fun i hi => ?_
    obtain ⟨hmem, hcovers⟩ := row_of_decodeWord hi
    rw [hall i.row hmem] at hcovers
    cases hcovers

end Sys2Proof
end

section
/-! Control transfer (41_flow.md) and 9xy0 (42_skip.md): what writing the stack changes, and 00EE, 2nnn, Bnnn, 9xy0. -/

namespace Sys2Proof.Machine

/-- Piece by piece, the stack with its pointer is all that `setStack` writes (R23). -/
theorem setStack_onlyChanges_stack (sp : Fin 17) (stack : Vector Word 16) (s : State) :
    OnlyChanges [.stack] s (setStack sp stack s) := by
  intro p hp
  cases p with
  | stack => simp at hp
  | v | i | pc | dt | st | key | fb | mem | wait | draws => simp [Same]

/-- A frame may be widened. -/
theorem OnlyChanges.mono {ps qs : List Part} {s t : State} (h : OnlyChanges ps s t) (hsub : ps ⊆ qs) :
    OnlyChanges qs s t := fun p hp => h p fun hmem => hp (hsub hmem)

/-- The commit adds PC and WAIT to the frame of what an instruction wrote before it (R85). -/
theorem OnlyChanges.commit {ps : List Part} {s u : State} (h : OnlyChanges ps s u) (pc : Word) :
    OnlyChanges (ps ++ [.pc, .wait]) s (Machine.commit pc false u) :=
  h.append (commit_onlyChanges_pc_wait pc false u)

/-! ### Targets -/

/-- The zero extension of a byte keeps its value (R7). -/
@[simp] theorem wordOf_toNat (b : Byte) : (wordOf b).toNat = b.toNat := BitVec.toNat_setWidth_of_le (by decide)

/-- The target of Bnnn fits 16 bits, so nothing wraps (R103). -/
theorem jpV0_target_toNat (nnn : Addr12) (b : Byte) : (addrOf nnn + wordOf b).toNat = nnn.toNat + b.toNat := by
  have hn := nnn.isLt
  have hb := b.isLt
  rw [BitVec.toNat_add, addrOf_toNat, wordOf_toNat]
  omega

/-- The address after this instruction, modulo 65536 (R86). -/
theorem pc_add_two (pc : Word) : pc + 2 = BitVec.ofNat 16 ((pc.toNat + 2) % 65536) := by
  apply BitVec.eq_of_toNat_eq
  simp [BitVec.toNat_add]

/-! ### Execution: RET and CALL fault at the ends of the stack, and write it and PC elsewhere -/

theorem exec_ret (s : State) : exec .ret s = execRet s := rfl

theorem exec_ret_of_zero {s : State} (h : s.sp.val = 0) : exec .ret s = .fault .stackUnderflow := by
  rw [exec_ret, execRet, pop_of_zero h, raise]

theorem exec_ret_of_pos {s : State} (h : 0 < s.sp.val) :
    exec .ret s =
      .next (commit s.stack[s.sp.val - 1] false (setStack ⟨s.sp.val - 1, by omega⟩ s.stack s)) := by
  rw [exec_ret, execRet, pop_of_pos h]
  rfl

theorem exec_call (nnn : Addr12) (s : State) : exec (.call nnn) s = execCall nnn s := rfl

theorem exec_call_of_full (nnn : Addr12) {s : State} (h : s.sp.val = 16) :
    exec (.call nnn) s = .fault .stackOverflow := by
  rw [exec_call, execCall, push_of_full h, raise]

theorem exec_call_of_lt (nnn : Addr12) {s : State} (h : s.sp.val < 16) :
    exec (.call nnn) s =
      .next (commit (addrOf nnn) false
        (setStack ⟨s.sp.val + 1, by omega⟩ (s.stack.set s.sp.val (s.pc + 2)) s)) := by
  rw [exec_call, execCall, push_of_lt h]
  rfl

theorem exec_jpV0 (nnn : Addr12) (s : State) :
    exec (.jpV0 nnn) s = .next (commit (addrOf nnn + wordOf (getV s V0)) false s) := rfl

theorem exec_sneVy (x y : RegIdx) (s : State) : exec (.sneVy x y) s = skipIf (getV s x != getV s y) s := rfl

/-- Writing the stack and then PC touches nothing else but WAIT (R85, R86). -/
theorem commit_setStack_onlyChanges (pc : Word) (sp : Fin 17) (stack : Vector Word 16) (s : State) :
    OnlyChanges [.pc, .stack, .wait] s (commit pc false (setStack sp stack s)) :=
  ((setStack_onlyChanges_stack sp stack s).commit pc).mono (by simp)

/-! ### The obligations -/

/-- Settles O18: the depth separates the fault from the pop. -/
theorem retPops : Obligations.RetPops :=
  ⟨decodeWord_ret, fun s => ⟨fun h => exec_ret_of_zero (congrArg Fin.val h), fun h =>
    ⟨_, exec_ret_of_pos h, rfl, rfl, rfl, rfl, commit_setStack_onlyChanges _ _ _ s⟩⟩⟩

/-- Settles O20: the depth separates the fault from the push, which writes one entry. -/
theorem callPushes : Obligations.CallPushes := fun nnn s => by
  refine ⟨decodeWord_call nnn, fun h => exec_call_of_full nnn (congrArg Fin.val h), fun h => ?_⟩
  have hstack (k : Fin 16) : (s.stack.set s.sp.val (s.pc + 2))[k] =
      if k.val = s.sp.val then BitVec.ofNat 16 ((s.pc.toNat + 2) % 65536) else s.stack[k] := by
    rw [← pc_add_two]
    simp [Vector.getElem_set, eq_comm (a := k.val)]
  exact ⟨_, exec_call_of_lt nnn h, addrOf_toNat nnn, rfl, hstack, rfl, commit_setStack_onlyChanges _ _ _ s⟩

/-- Settles O21: Bnnn is a commit of a target that does not wrap. -/
theorem jpV0AddsV0 : Obligations.JpV0AddsV0 := fun nnn s =>
  ⟨decodeWord_jpV0 nnn, _, exec_jpV0 nnn s, jpV0_target_toNat nnn (getV s V0), rfl,
    commit_onlyChanges_pc_wait _ false s⟩

/-- Settles O25: the low nibble decides whether the word decodes, and 9xy0 is a skip on the Boolean test `Vx != Vy`. -/
theorem sneVySkips : Obligations.SneVySkips := fun x y s =>
  ⟨(decodeWord_family9 x y 0x0).trans (if_pos rfl), fun n hn => (decodeWord_family9 x y n).trans (if_neg hn), by
    simpa only [exec_sneVy, bne_iff_ne, bne_eq_false_iff_eq] using skipIf_completes (getV s x != getV s y) s⟩

end Sys2Proof.Machine
end

section
/-! Loads and arithmetic on two registers (43_load_alu.md): what writing a result and a flag does, and 8xy0 to 8xy7,
8xyE, Cxkk. -/

namespace Sys2Proof.Machine

/-- `advance_setV_completes` with Vx and the other registers told apart. -/
theorem advance_setV_writes (x : RegIdx) (b : Byte) (s : State) :
    ∃ t, advance (setV x b s) = .next t ∧ getV t x = b ∧ (∀ r, r ≠ x → getV t r = getV s r) ∧
      t.pc = s.pc + 2 ∧ t.wait = false ∧ OnlyChanges [.v, .pc, .wait] s t := by
  obtain ⟨t, hexec, hv, hrest⟩ := advance_setV_completes x b s
  exact ⟨t, hexec, (hv x).trans (if_pos rfl), fun r hr => (hv r).trans (if_neg hr), hrest⟩

/-- Piece by piece, the registers are all that the result and the flag together write (R13). -/
theorem setFlag_setV_onlyChanges_v (x : RegIdx) (b : Byte) (f : Bool) (s : State) :
    OnlyChanges [.v] s (setFlag f (setV x b s)) :=
  ((setV_onlyChanges_v x b s).append (setV_onlyChanges_v VF (flagByte f) (setV x b s))).mono (by simp)

/-- An ALU instruction with a flag always completes; the flag is written last, so it wins when x is F (R13, R133). -/
theorem writeWithFlag_completes (x : RegIdx) (b : Byte) (f : Bool) (s : State) :
    ∃ t, writeWithFlag x b f s = .next t ∧
      (∀ r, getV t r = if r = VF then flagByte f else if r = x then b else getV s r) ∧
      t.pc = s.pc + 2 ∧ t.wait = false ∧ OnlyChanges [.v, .pc, .wait] s t :=
  ⟨commit (s.pc + 2) false (setFlag f (setV x b s)), rfl, fun r => by simp, rfl, rfl,
    (setFlag_setV_onlyChanges_v x b f s).commit (s.pc + 2)⟩

/-- Piece by piece, the counter is all that `countDraw` writes (log entry 3). -/
theorem countDraw_onlyChanges_draws (s : State) : OnlyChanges [.draws] s (countDraw s) := by
  intro p hp
  cases p with
  | draws => simp at hp
  | stack => exact ⟨countDraw_sp s, countDraw_stack s⟩
  | v | i | pc | dt | st | key | fb | mem | wait => simp [Same]

/-! ### Results and flags in integer arithmetic (R126 to R130) -/

theorem flagByte_carryOf (a b : Byte) : flagByte (carryOf a b) = if a.toNat + b.toNat > 255 then 1 else 0 := by
  simp [flagByte, carryOf]

theorem flagByte_exceeds (a b : Byte) : flagByte (exceeds a b) = if a.toNat > b.toNat then 1 else 0 := by
  simp [flagByte, exceeds]

theorem flagByte_lowBit (a : Byte) : flagByte (lowBit a) = BitVec.ofNat 8 (a.toNat % 2) := by
  rcases Nat.mod_two_eq_zero_or_one a.toNat with h | h <;> simp [flagByte, lowBit, BitVec.getLsbD, h]

theorem flagByte_highBit (a : Byte) : flagByte (highBit a) = BitVec.ofNat 8 (a.toNat / 128) := by
  have hlt : a.toNat / 128 < 2 := Nat.div_lt_of_lt_mul a.isLt
  have hbit : highBit a = decide (a.toNat / 128 = 1) := by
    rw [highBit, BitVec.getLsbD, Nat.testBit_eq_decide_div_mod_eq, Nat.mod_eq_of_lt hlt]
  have : a.toNat / 128 = 0 ∨ a.toNat / 128 = 1 := by omega
  rcases this with h | h <;> simp [flagByte, hbit, h]

theorem byte_add (a b : Byte) : a + b = BitVec.ofNat 8 ((a.toNat + b.toNat) % 256) := by
  apply BitVec.eq_of_toNat_eq
  simp [BitVec.toNat_add]

theorem byte_sub (a b : Byte) : a - b = BitVec.ofNat 8 ((a.toNat + 256 - b.toNat) % 256) := by
  have hb := b.isLt
  apply BitVec.eq_of_toNat_eq
  simp only [BitVec.toNat_sub, BitVec.toNat_ofNat]
  omega

theorem byte_shiftRight_one (a : Byte) : a >>> 1 = BitVec.ofNat 8 (a.toNat / 2) := by
  apply BitVec.eq_of_toNat_eq
  simp only [BitVec.toNat_ushiftRight, BitVec.toNat_ofNat, Nat.shiftRight_eq_div_pow]
  omega

theorem byte_shiftLeft_one (a : Byte) : a <<< 1 = BitVec.ofNat 8 (a.toNat * 2 % 256) := by
  apply BitVec.eq_of_toNat_eq
  simp [BitVec.toNat_shiftLeft, Nat.shiftLeft_eq]

/-! ### Execution: one write of Vx, or a result and a flag -/

theorem exec_ldVy (x y : RegIdx) (s : State) : exec (.ldVy x y) s = advance (setV x (getV s y) s) := rfl

theorem exec_orVy (x y : RegIdx) (s : State) : exec (.orVy x y) s = advance (setV x (getV s x ||| getV s y) s) := rfl

theorem exec_andVy (x y : RegIdx) (s : State) : exec (.andVy x y) s = advance (setV x (getV s x &&& getV s y) s) := rfl

theorem exec_xorVy (x y : RegIdx) (s : State) : exec (.xorVy x y) s = advance (setV x (getV s x ^^^ getV s y) s) := rfl

theorem exec_addVy (x y : RegIdx) (s : State) : exec (.addVy x y) s =
    writeWithFlag x (getV s x + getV s y) (carryOf (getV s x) (getV s y)) s := rfl

theorem exec_sub (x y : RegIdx) (s : State) : exec (.sub x y) s =
    writeWithFlag x (getV s x - getV s y) (exceeds (getV s x) (getV s y)) s := rfl

theorem exec_shr (x y : RegIdx) (s : State) : exec (.shr x y) s =
    writeWithFlag x (getV s x >>> 1) (lowBit (getV s x)) s := rfl

theorem exec_subn (x y : RegIdx) (s : State) : exec (.subn x y) s =
    writeWithFlag x (getV s y - getV s x) (exceeds (getV s y) (getV s x)) s := rfl

theorem exec_shl (x y : RegIdx) (s : State) : exec (.shl x y) s =
    writeWithFlag x (getV s x <<< 1) (highBit (getV s x)) s := rfl

theorem exec_rnd (x : RegIdx) (kk : Byte) (s : State) : exec (.rnd x kk) s =
    advance (setV x (Config.rnd s.draws &&& kk) (countDraw s)) := rfl

/-! ### The obligations -/

/-- Settles O28: 8xy0 writes Vy to Vx and advances. -/
theorem ldVyCopies : Obligations.LdVyCopies := fun x y s =>
  ⟨decodeWord_family8 x y 0x0, by simpa only [exec_ldVy] using advance_setV_completes x (getV s y) s⟩

/-- Settles O29: 8xy1 writes the OR of the bytes to Vx and advances. -/
theorem orIsBitwise : Obligations.OrIsBitwise := fun x y s => by
  obtain ⟨t, hexec, hx, hrest⟩ := advance_setV_writes x (getV s x ||| getV s y) s
  exact ⟨decodeWord_family8 x y 0x1, t, (exec_orVy x y s).trans hexec,
    fun b _ => by rw [hx, BitVec.getLsbD_or], hrest⟩

/-- Settles O30: 8xy2 writes the AND of the bytes to Vx and advances. -/
theorem andIsBitwise : Obligations.AndIsBitwise := fun x y s => by
  obtain ⟨t, hexec, hx, hrest⟩ := advance_setV_writes x (getV s x &&& getV s y) s
  exact ⟨decodeWord_family8 x y 0x2, t, (exec_andVy x y s).trans hexec,
    fun b _ => by rw [hx, BitVec.getLsbD_and], hrest⟩

/-- Settles O31: 8xy3 writes the XOR of the bytes to Vx and advances. -/
theorem xorIsBitwise : Obligations.XorIsBitwise := fun x y s => by
  obtain ⟨t, hexec, hx, hrest⟩ := advance_setV_writes x (getV s x ^^^ getV s y) s
  exact ⟨decodeWord_family8 x y 0x3, t, (exec_xorVy x y s).trans hexec,
    fun b _ => by rw [hx, BitVec.getLsbD_xor], hrest⟩

/-- Settles O32: 8xy4 writes the byte sum and its carry. -/
theorem addVySetsCarry : Obligations.AddVySetsCarry := fun x y s => by
  refine ⟨decodeWord_family8 x y 0x4, ?_⟩
  simpa only [exec_addVy, flagByte_carryOf, byte_add] using
    writeWithFlag_completes x (getV s x + getV s y) (carryOf (getV s x) (getV s y)) s

/-- Settles O33: 8xy5 writes the byte difference Vx − Vy and the strict comparison. -/
theorem subSetsStrictNoBorrow : Obligations.SubSetsStrictNoBorrow := fun x y s => by
  refine ⟨decodeWord_family8 x y 0x5, ?_⟩
  simpa only [exec_sub, flagByte_exceeds, byte_sub] using
    writeWithFlag_completes x (getV s x - getV s y) (exceeds (getV s x) (getV s y)) s

/-- Settles O34: 8xy6 writes half of Vx and the bit shifted out. -/
theorem shrShiftsVxInPlace : Obligations.ShrShiftsVxInPlace := fun x y s => by
  refine ⟨decodeWord_family8 x y 0x6, ?_⟩
  simpa only [exec_shr, flagByte_lowBit, byte_shiftRight_one] using
    writeWithFlag_completes x (getV s x >>> 1) (lowBit (getV s x)) s

/-- Settles O35: 8xy7 writes the byte difference Vy − Vx and the strict comparison. -/
theorem subnSetsStrictNoBorrow : Obligations.SubnSetsStrictNoBorrow := fun x y s => by
  refine ⟨decodeWord_family8 x y 0x7, ?_⟩
  simpa only [exec_subn, flagByte_exceeds, byte_sub] using
    writeWithFlag_completes x (getV s y - getV s x) (exceeds (getV s y) (getV s x)) s

/-- Settles O36: 8xyE writes twice Vx and the bit shifted out. -/
theorem shlShiftsVxInPlace : Obligations.ShlShiftsVxInPlace := fun x y s => by
  refine ⟨decodeWord_family8 x y 0xE, ?_⟩
  simpa only [exec_shl, flagByte_highBit, byte_shiftLeft_one] using
    writeWithFlag_completes x (getV s x <<< 1) (highBit (getV s x)) s

/-- Settles O37: Cxkk counts the draw, then writes the masked byte to Vx and advances. -/
theorem rndMasksTheDrawnByte : Obligations.RndMasksTheDrawnByte := fun x kk s => by
  obtain ⟨t, hexec, hx, hr, hpc, hwait, hframe⟩ := advance_setV_writes x (Config.rnd s.draws &&& kk) (countDraw s)
  have hdraws : t.draws = s.draws + 1 := hframe .draws (by simp)
  exact ⟨decodeWord_rnd x kk, t, (exec_rnd x kk s).trans hexec, fun b _ => by rw [hx, BitVec.getLsbD_and], hr,
    hdraws, hpc, hwait, ((countDraw_onlyChanges_draws s).append hframe).mono (by simp)⟩

end Sys2Proof.Machine
end

section
/-! Index register and memory (44_index_memory.md): the bounds check, what writing memory or a register block changes,
and Fx1E, Fx33, Fx55, Fx65. -/

namespace Sys2Proof.Machine

/-! ### The bounds check (R47) -/

theorem firstOutOfRange_eq (a : Word) : firstOutOfRange a = BitVec.ofNat 16 (max a.toNat 4096) := by
  have ha := a.isLt
  apply BitVec.eq_of_toNat_eq
  rw [firstOutOfRange_toNat, BitVec.toNat_ofNat, Nat.mod_eq_of_lt (by omega)]

theorem withRange_of_inside {len : Nat} {s : State} {k : StepResult} (h : len = 0 ∨ s.i.toNat + len ≤ 4096) :
    withRange len s k = k := (withRange_eq len s k).trans (if_pos h)

theorem withRange_of_outside {len : Nat} {s : State} {k : StepResult} (hlen : 0 < len) (h : 4096 < s.i.toNat + len) :
    withRange len s k = .fault (.memoryOutOfRange (BitVec.ofNat 16 (max s.i.toNat 4096))) := by
  rw [withRange_eq, if_neg (by omega), firstOutOfRange_eq]

/-! ### Reading a stored block (R43, R46) -/

theorem Memory.read_writeBytes_inside (m : Memory) (base : Nat) {bs : List Byte} {k : Nat} (h : k < bs.length) :
    Memory.read (Memory.writeBytes m base bs) (base + k) = bs[k] := by
  rw [Memory.read_writeBytes, dif_pos (by omega)]
  simp

theorem Memory.read_writeBytes_outside (m : Memory) {base a : Nat} {bs : List Byte}
    (h : a < base ∨ base + bs.length ≤ a) : Memory.read (Memory.writeBytes m base bs) a = Memory.read m a := by
  rw [Memory.read_writeBytes, dif_neg (by omega)]

/-- The digits of a byte are three (R143). -/
@[simp] theorem bcdDigits_length (b : Byte) : (bcdDigits b).length = 3 := rfl

/-! ### Frames -/

/-- Piece by piece, memory is all that `setMem` writes (R40). -/
theorem setMem_onlyChanges_mem (m : Memory) (s : State) : OnlyChanges [.mem] s (setMem m s) := by
  intro p hp
  cases p with
  | mem => simp at hp
  | stack => exact ⟨setMem_sp s m, setMem_stack s m⟩
  | v | i | pc | dt | st | key | fb | wait | draws => simp [Same]

/-- Piece by piece, the registers are all that `setVFrom` writes (R145). -/
theorem setVFrom_onlyChanges_v (r : Nat) (bs : List Byte) (s : State) : OnlyChanges [.v] s (setVFrom r bs s) := by
  intro p hp
  cases p with
  | v => simp at hp
  | stack => exact ⟨setVFrom_sp s r bs, setVFrom_stack s r bs⟩
  | i | pc | dt | st | key | fb | mem | wait | draws => simp [Same]

/-! ### Execution -/

theorem exec_addI (x : RegIdx) (s : State) : exec (.addI x) s = advance (setI (s.i + wordOf (getV s x)) s) := rfl

theorem exec_ldB (x : RegIdx) (s : State) : exec (.ldB x) s =
    withRange 3 s (advance (setMem (Memory.writeBytes s.mem s.i.toNat (bcdDigits (getV s x))) s)) := rfl

theorem exec_ldMem (x : RegIdx) (s : State) : exec (.ldMem x) s =
    withRange (x.toNat + 1) s (advance (setMem (Memory.writeBytes s.mem s.i.toNat (blockV s x)) s)) := rfl

theorem exec_ldVxMem (x : RegIdx) (s : State) : exec (.ldVxMem x) s =
    withRange (x.toNat + 1) s
      (advance (setVFrom 0 (Memory.readBytes s.mem s.i.toNat (x.toNat + 1)) s)) := rfl

/-- A store that the bounds check lets through completes: the block is in memory, and every byte outside it is kept. -/
theorem storeBlock_completes {len : Nat} {s : State} {bs : List Byte} (hlen : bs.length = len)
    (h : s.i.toNat + len ≤ 4096) :
    ∃ t, withRange len s (advance (setMem (Memory.writeBytes s.mem s.i.toNat bs) s)) = .next t ∧
      (∀ (k : Nat) (hk : k < bs.length), Memory.read t.mem (s.i.toNat + k) = bs[k]) ∧
      (∀ a, a < s.i.toNat ∨ s.i.toNat + len ≤ a → Memory.read t.mem a = Memory.read s.mem a) ∧
      t.pc = s.pc + 2 ∧ t.wait = false ∧ OnlyChanges [.mem, .pc, .wait] s t :=
  ⟨commit (s.pc + 2) false (setMem (Memory.writeBytes s.mem s.i.toNat bs) s), withRange_of_inside (.inr h),
    fun _ hk => Memory.read_writeBytes_inside s.mem s.i.toNat hk,
    fun _ ha => Memory.read_writeBytes_outside s.mem (hlen ▸ ha), rfl, rfl,
    (setMem_onlyChanges_mem _ s).commit (s.pc + 2)⟩

/-- Register q of the block that Fx65 loads, and the registers above it (R145). -/
theorem getV_loadBlock (s : State) (x q : RegIdx) :
    getV (setVFrom 0 (Memory.readBytes s.mem s.i.toNat (x.toNat + 1)) s) q =
      if q.toNat ≤ x.toNat then Memory.read s.mem (s.i.toNat + q.toNat) else getV s q := by
  have hx := x.isLt
  rw [getV_setVFrom 0 _ s q (by rw [Memory.readBytes_length]; omega)]
  by_cases hq : q.toNat ≤ x.toNat
  · rw [if_pos hq, dif_pos (by rw [Memory.readBytes_length]; omega)]
    simp
  · rw [if_neg hq, dif_neg (by rw [Memory.readBytes_length]; omega)]

/-! ### The obligations -/

/-- Settles O39: Fx1E writes the 16-bit sum to I and advances. -/
theorem addIWrapsAt16Bits : Obligations.AddIWrapsAt16Bits := fun x s => by
  obtain ⟨t, hexec, hi, hrest⟩ := advance_setI_completes (s.i + wordOf (getV s x)) s
  have hsum : t.i.toNat = (s.i.toNat + (getV s x).toNat) % 65536 := by rw [hi, BitVec.toNat_add, wordOf_toNat]
  exact ⟨(decodeWord_familyF x 0x1E).trans rfl, t, (exec_addI x s).trans hexec, hsum, hrest⟩

/-- Settles O41: the bounds check separates the fault from the store of the three digits. -/
theorem ldBStoresDigits : Obligations.LdBStoresDigits := fun x s => by
  refine ⟨(decodeWord_familyF x 0x33).trans rfl, fun h => ?_, fun h => ?_⟩
  · exact (exec_ldB x s).trans (withRange_of_outside (by omega) (by omega))
  · obtain ⟨t, hexec, hin, hout, hrest⟩ :=
      storeBlock_completes (bcdDigits_length (getV s x)) (by omega : s.i.toNat + 3 ≤ 4096)
    have hv := (getV s x).isLt
    refine ⟨t, (exec_ldB x s).trans hexec, ?_, ?_, ?_, fun a ha => hout a (by omega), hrest⟩
    · exact (congrArg BitVec.toNat (hin 0 (by simp))).trans (Nat.mod_eq_of_lt (by omega))
    · exact (congrArg BitVec.toNat (hin 1 (by simp))).trans (Nat.mod_eq_of_lt (by omega))
    · exact (congrArg BitVec.toNat (hin 2 (by simp))).trans (Nat.mod_eq_of_lt (by omega))

/-- Settles O42: the bounds check separates the fault from the store of the register block. -/
theorem ldMemStoresBlock : Obligations.LdMemStoresBlock := fun x s => by
  refine ⟨(decodeWord_familyF x 0x55).trans rfl, fun h => ?_, fun h => ?_⟩
  · exact (exec_ldMem x s).trans (withRange_of_outside (by omega) (by omega))
  · obtain ⟨t, hexec, hin, hout, hrest⟩ :=
      storeBlock_completes (blockV_length s x) (by omega : s.i.toNat + (x.toNat + 1) ≤ 4096)
    refine ⟨t, (exec_ldMem x s).trans hexec, fun k hk => ?_, fun a ha => hout a (by omega), hrest⟩
    have hlen : k.toNat < (blockV s x).length := by rw [blockV_length]; omega
    rw [hin k.toNat hlen, blockV_getElem, BitVec.ofNat_toNat, BitVec.setWidth_eq]

/-- Settles O43: the bounds check separates the fault from the load of the register block. -/
theorem ldVxMemLoadsBlock : Obligations.LdVxMemLoadsBlock := fun x s => by
  refine ⟨(decodeWord_familyF x 0x65).trans rfl, fun h => ?_, fun h => ?_⟩
  · exact (exec_ldVxMem x s).trans (withRange_of_outside (by omega) (by omega))
  · exact ⟨_, (exec_ldVxMem x s).trans (withRange_of_inside (by omega)),
      fun k hk => (getV_loadBlock s x k).trans (if_pos hk),
      fun k hk => (getV_loadBlock s x k).trans (if_neg (Nat.not_le_of_gt hk)),
      congrArg (· + 2) (setVFrom_pc s 0 _), rfl, (setVFrom_onlyChanges_v 0 _ s).commit _⟩

end Sys2Proof.Machine
end

section
/-! Keypad and timers (46_keypad_timers.md): Ex9E, ExA1, Fx07, Fx15, Fx18. -/

namespace Sys2Proof.Machine

/-! ### Frames -/

/-- Piece by piece, DT is all that `setDt` writes (R27). -/
theorem setDt_onlyChanges_dt (b : Byte) (s : State) : OnlyChanges [.dt] s (setDt b s) := by
  intro p hp
  cases p with
  | dt => simp at hp
  | stack => exact ⟨setDt_sp s b, setDt_stack s b⟩
  | v | i | pc | st | key | fb | mem | wait | draws => simp [Same]

/-- Piece by piece, ST is all that `setSt` writes (R27). -/
theorem setSt_onlyChanges_st (b : Byte) (s : State) : OnlyChanges [.st] s (setSt b s) := by
  intro p hp
  cases p with
  | st => simp at hp
  | stack => exact ⟨setSt_sp s b, setSt_stack s b⟩
  | v | i | pc | dt | key | fb | mem | wait | draws => simp [Same]

/-! ### Execution: a skip on a key, or one write of Vx, DT or ST -/

theorem exec_skp (x : RegIdx) (s : State) : exec (.skp x) s = execSkp x s := rfl

theorem exec_skp_of_le {x : RegIdx} {s : State} (hx : (getV s x).toNat ≤ 15) :
    exec (.skp x) s = skipIf (keyDown s (getV s x).toNat) s := by
  rw [exec_skp, execSkp, indexOf_of_le hx]

theorem exec_skp_of_gt {x : RegIdx} {s : State} (hx : 15 < (getV s x).toNat) :
    exec (.skp x) s = .fault (.invalidKeyIndex (getV s x)) := by
  rw [exec_skp, execSkp, indexOf_of_gt hx, raise]

theorem exec_sknp (x : RegIdx) (s : State) : exec (.sknp x) s = execSknp x s := rfl

theorem exec_sknp_of_le {x : RegIdx} {s : State} (hx : (getV s x).toNat ≤ 15) :
    exec (.sknp x) s = skipIf (!keyDown s (getV s x).toNat) s := by
  rw [exec_sknp, execSknp, indexOf_of_le hx]

theorem exec_sknp_of_gt {x : RegIdx} {s : State} (hx : 15 < (getV s x).toNat) :
    exec (.sknp x) s = .fault (.invalidKeyIndex (getV s x)) := by
  rw [exec_sknp, execSknp, indexOf_of_gt hx, raise]

theorem exec_ldVxDt (x : RegIdx) (s : State) : exec (.ldVxDt x) s = advance (setV x s.dt s) := rfl

theorem exec_ldDtVx (x : RegIdx) (s : State) : exec (.ldDtVx x) s = advance (setDt (getV s x) s) := rfl

theorem exec_ldStVx (x : RegIdx) (s : State) : exec (.ldStVx x) s = advance (setSt (getV s x) s) := rfl

/-! ### The obligations -/

/-- Settles O47: the index check on the whole of Vx separates the fault from the skip on that key. -/
theorem skpSkipsOnKeyDown : Obligations.SkpSkipsOnKeyDown := fun x s => by
  refine ⟨(decodeWord_familyE x 0x9E).trans rfl, exec_skp_of_gt, fun k hk => ?_⟩
  have hkey : keyDown s (getV s x).toNat = s.key[k] := by rw [hk]; exact keyDown_eq s k k.isLt
  rw [exec_skp_of_le (by omega), hkey]
  exact skipIf_completes s.key[k] s

/-- Settles O48: the index check on the whole of Vx separates the fault from the skip on that key being up. -/
theorem sknpSkipsOnKeyUp : Obligations.SknpSkipsOnKeyUp := fun x s => by
  refine ⟨(decodeWord_familyE x 0xA1).trans rfl, exec_sknp_of_gt, fun k hk => ?_⟩
  have hkey : keyDown s (getV s x).toNat = s.key[k] := by rw [hk]; exact keyDown_eq s k k.isLt
  rw [exec_sknp_of_le (by omega), hkey]
  simpa only [Bool.not_eq_true', Bool.not_eq_false'] using skipIf_completes (!s.key[k]) s

/-- Settles O50: Fx07 writes DT to Vx and advances. -/
theorem ldVxDtReadsDelay : Obligations.LdVxDtReadsDelay := fun x s =>
  ⟨(decodeWord_familyF x 0x07).trans rfl, by simpa only [exec_ldVxDt] using advance_setV_completes x s.dt s⟩

/-- Settles O51: Fx15 writes Vx to DT and advances. -/
theorem ldDtVxWritesDelay : Obligations.LdDtVxWritesDelay := fun x s =>
  ⟨(decodeWord_familyF x 0x15).trans rfl, _, exec_ldDtVx x s, rfl, rfl, rfl,
    (setDt_onlyChanges_dt (getV s x) s).commit (s.pc + 2)⟩

/-- Settles O52: Fx18 writes Vx to ST and advances. -/
theorem ldStVxWritesSound : Obligations.LdStVxWritesSound := fun x s =>
  ⟨(decodeWord_familyF x 0x18).trans rfl, _, exec_ldStVx x s, rfl, rfl, rfl,
    (setSt_onlyChanges_st (getV s x) s).commit (s.pc + 2)⟩

end Sys2Proof.Machine
end

section
/-! The sprite of Dxyn (45_display.md): which pixels a draw toggles, what VF reports, and drawing twice. -/

namespace Sys2Proof.Machine

/-- What Dxyn draws: the framebuffer after it, and whether a set pixel was hit (R151). -/
def drawn (s : State) (x y : RegIdx) (n : Nibble) : Framebuffer × Bool :=
  drawSprite s.fb (getV s x).toNat (getV s y).toNat (Memory.readBytes s.mem s.i.toNat n.toNat)

/-- A bit of the sprite falls on the screen, by the wrap at its edges (R154). -/
theorem SpriteBitAt.onScreen {s : State} {x y : RegIdx} {n : Nibble} {row col : Nat}
    (h : SpriteBitAt s x y n row col) : row < 32 ∧ col < 64 := by
  obtain ⟨k, _, b, _, _, rfl, rfl⟩ := h
  exact ⟨Nat.mod_lt _ (by decide), Nat.mod_lt _ (by decide)⟩

/-- The pixels that the draw goes through are those that the spec's rule names (R151, R153, R154). -/
theorem mem_spritePixels_iff_spriteBitAt {s : State} {x y : RegIdx} {n : Nibble} {row col : Nat} :
    (row, col) ∈ spritePixels (getV s x).toNat (getV s y).toNat 0 (Memory.readBytes s.mem s.i.toNat n.toNat) ↔
      SpriteBitAt s x y n row col := by
  simp only [mem_spritePixels, SpriteBitAt, Memory.readBytes_length, Memory.readBytes_getElem, exists_prop,
    Nat.zero_add]

theorem spriteBytes_length_le (s : State) (n : Nibble) : (Memory.readBytes s.mem s.i.toNat n.toNat).length ≤ 32 := by
  have hn := n.isLt
  rw [Memory.readBytes_length]
  omega

/-- Each pixel that a 1 bit falls on is toggled, once. -/
theorem pixel_drawn_of_bit {s : State} {x y : RegIdx} {n : Nibble} {row col : Nat}
    (h : SpriteBitAt s x y n row col) : pixel (drawn s x y n).1 row col = !pixel s.fb row col := by
  rw [drawn, (drawSprite_spec s.fb _ _ _ (spriteBytes_length_le s n)).1 row col h.onScreen.2,
    decide_eq_true (mem_spritePixels_iff_spriteBitAt.mpr h), Bool.xor_true]

/-- Every other pixel is kept. -/
theorem pixel_drawn_of_not_bit {s : State} {x y : RegIdx} {n : Nibble} {row col : Nat} (hcol : col < 64)
    (h : ¬ SpriteBitAt s x y n row col) : pixel (drawn s x y n).1 row col = pixel s.fb row col := by
  rw [drawn, (drawSprite_spec s.fb _ _ _ (spriteBytes_length_le s n)).1 row col hcol,
    decide_eq_false (mt mem_spritePixels_iff_spriteBitAt.mp h), Bool.xor_false]

/-- The collision bit is set exactly when a 1 bit falls on a pixel that is 1 (R155). -/
theorem drawn_hit_iff {s : State} {x y : RegIdx} {n : Nibble} :
    (drawn s x y n).2 = true ↔ SpriteCollides s x y n := by
  rw [drawn, (drawSprite_spec s.fb _ _ _ (spriteBytes_length_le s n)).2, List.any_eq_true, Prod.exists]
  exact exists_congr fun row => exists_congr fun col => and_congr_left' mem_spritePixels_iff_spriteBitAt

theorem flagByte_of_true {f : Bool} (h : f = true) : flagByte f = 1 := if_pos h

theorem flagByte_of_not {f : Bool} (h : ¬ f = true) : flagByte f = 0 := if_neg h

/-- Piece by piece, the framebuffer and the registers are all that the draw and its flag write. -/
theorem setFlag_setFb_onlyChanges (fb : Framebuffer) (f : Bool) (s : State) :
    OnlyChanges [.fb, .v] s (setFlag f (setFb fb s)) :=
  (setFb_onlyChanges_fb fb s).append (setV_onlyChanges_v VF (flagByte f) (setFb fb s))

/-! ### Execution -/

theorem exec_drw (x y : RegIdx) (n : Nibble) (s : State) : exec (.drw x y n) s =
    withRange n.toNat s (advance (setFlag (drawn s x y n).2 (setFb (drawn s x y n).1 s))) := rfl

/-! ### The obligations -/

/-- Settles O45: the bounds check separates the fault from the draw, and the draw is `drawn`. -/
theorem drwTogglesSpriteBits : Obligations.DrwTogglesSpriteBits := fun x y n s => by
  refine ⟨decodeWord_drw x y n, fun ⟨hn, hout⟩ => ?_, fun hin => ?_⟩
  · exact (exec_drw x y n s).trans (withRange_of_outside hn (by omega))
  · have hVF : getV (setFlag (drawn s x y n).2 (setFb (drawn s x y n).1 s)) VF = flagByte (drawn s x y n).2 := by simp
    refine ⟨_, (exec_drw x y n s).trans (withRange_of_inside (by omega)),
      fun row col _ hcol => ⟨pixel_drawn_of_bit, pixel_drawn_of_not_bit hcol⟩,
      fun hhit => hVF.trans (flagByte_of_true (drawn_hit_iff.mpr hhit)),
      fun hmiss => hVF.trans (flagByte_of_not (mt drawn_hit_iff.mp hmiss)),
      fun r hr => by simp [hr], rfl, rfl, (setFlag_setFb_onlyChanges _ _ s).commit (s.pc + 2)⟩

/-- Two framebuffers with the same pixels are the same: every bit is a pixel (R33). -/
theorem fb_ext {a b : Framebuffer} (h : ∀ row col, row < 32 → col < 64 → pixel a row col = pixel b row col) :
    a = b := by
  apply BitVec.eq_of_getLsbD_eq
  intro j hj
  have hpix := h (j / 64) (j % 64) (by omega) (by omega)
  rwa [pixel, pixel, Config.fbCols, Nat.div_add_mod' j 64] at hpix

/-- Where a sprite falls rests on its bytes, I, Vx and Vy alone. -/
theorem spriteBitAt_congr {s t : State} {x y : RegIdx} (hmem : ∀ a, Memory.read t.mem a = Memory.read s.mem a)
    (hi : t.i = s.i) (hx : getV t x = getV s x) (hy : getV t y = getV s y) {n : Nibble} {row col : Nat} :
    SpriteBitAt t x y n row col ↔ SpriteBitAt s x y n row col := by
  simp only [SpriteBitAt, hmem, hi, hx, hy]

/-- A byte that is 1 when something holds and 0 when it does not reports it. -/
theorem eq_one_iff_of_flag {p : Prop} {b : Byte} (hyes : p → b = 1) (hno : ¬ p → b = 0) : b = 1 ↔ p :=
  ⟨fun h1 => by_contra fun hp => absurd ((hno hp).symm.trans h1) (by decide), hyes⟩

/-- Settles O46: the second draw is the first one's sprite at the first one's place, so it toggles the same pixels back,
and it hits a set pixel where the first hit a clear one. Both draws are taken from O45. -/
theorem drawTwiceRestoresFramebuffer : Obligations.DrawTwiceRestoresFramebuffer := fun x y n s t hx hy hst => by
  obtain ⟨-, hfault, hdraw⟩ := drwTogglesSpriteBits x y n s
  have hin : n.toNat = 0 ∨ s.i.toNat + n.toNat - 1 ≤ 4095 := by
    by_contra hout
    rw [hfault (by omega)] at hst
    cases hst
  obtain ⟨t', hst', hfb, hhit, hmiss, hv, -, -, hframe⟩ := hdraw hin
  obtain rfl : t' = t := by rw [hst] at hst'; cases hst'; rfl
  have hi : t'.i = s.i := hframe .i (by simp)
  have hbit {row col : Nat} : SpriteBitAt t' x y n row col ↔ SpriteBitAt s x y n row col :=
    spriteBitAt_congr (hframe .mem (by simp)) hi (hv x hx) (hv y hy)
  have hcollides : SpriteCollides t' x y n ↔ SpriteHitsClear s x y n := by
    refine exists_congr fun row => exists_congr fun col => ?_
    rw [hbit]
    refine and_congr_right fun hb => ?_
    obtain ⟨hrow, hcol⟩ := hb.onScreen
    rw [(hfb row col hrow hcol).1 hb, Bool.not_eq_true']
  obtain ⟨-, -, hdraw'⟩ := drwTogglesSpriteBits x y n t'
  obtain ⟨u, htu, hfb', hhit', hmiss', -⟩ := hdraw' (by rw [hi]; exact hin)
  refine ⟨u, htu, fb_ext fun row col hrow hcol => ?_, eq_one_iff_of_flag hhit hmiss,
    (eq_one_iff_of_flag hhit' hmiss').trans hcollides⟩
  obtain ⟨hflip, hkeep⟩ := hfb row col hrow hcol
  obtain ⟨hflip', hkeep'⟩ := hfb' row col hrow hcol
  by_cases hb : SpriteBitAt s x y n row col
  · rw [hflip' (hbit.mpr hb), hflip hb, Bool.not_not]
  · rw [hkeep' (mt hbit.mp hb), hkeep hb]

end Sys2Proof.Machine
end

section
/-! The fetch and the decode of a step (40_step_cycle.md R85, 20_memory.md R43, R44). -/

namespace Sys2Proof.Machine

/-- The first of two bytes is the high one (R43). -/
theorem wordOfBytes_toNat (hi lo : Byte) : (wordOfBytes hi lo).toNat = hi.toNat * 256 + lo.toNat := by
  have hlo : lo.toNat < 2 ^ 8 := lo.isLt
  rw [wordOfBytes, BitVec.toNat_append, ← Nat.shiftLeft_add_eq_or_of_lt hlo, Nat.shiftLeft_eq]

/-- At or below 4094 the fetch answers the word at PC. -/
theorem fetch_of_le {s : State} (h : s.pc.toNat ≤ 4094) : fetch s =
    .ok (wordOfBytes (Memory.read s.mem s.pc.toNat) (Memory.read s.mem (s.pc.toNat + 1))) := if_pos h

/-- Above 4094 it faults, with max(PC, 4096). -/
theorem fetch_of_gt {s : State} (h : 4094 < s.pc.toNat) :
    fetch s = .error (.memoryOutOfRange (BitVec.ofNat 16 (max s.pc.toNat 4096))) := by
  rw [fetch, if_neg (Nat.not_le_of_gt h), firstOutOfRange_eq]

/-- A step whose instruction cannot be had is that fault (R171). -/
theorem step_of_fetchInstr_error {s : State} {f : Fault} (h : fetchInstr s = .error f) : step s = .fault f := by
  rw [step, h]
  rfl

theorem fetchInstr_of_fetch_error {s : State} {f : Fault} (h : fetch s = .error f) : fetchInstr s = .error f := by
  rw [fetchInstr, h]

theorem fetchInstr_of_invalidWord {s : State} {w : Word} (h : fetch s = .ok w) (hw : InvalidWord w) :
    fetchInstr s = .error (.invalidOpcode w) := by
  simp only [fetchInstr, h, decodeWord_of_invalidWord hw]

/-- Settles O6: the fetch above 4094 faults and the step with it; at or below, the word is high byte first. -/
theorem fetchBoundsAndByteOrder : Obligations.FetchBoundsAndByteOrder := fun _ =>
  ⟨fun h => ⟨fetch_of_gt h, step_of_fetchInstr_error (fetchInstr_of_fetch_error (fetch_of_gt h))⟩,
    fun h => ⟨_, fetch_of_le h, wordOfBytes_toNat _ _⟩⟩

/-- Settles O7: the bytes decode exactly when their word does, and that word is the one fetched. -/
theorem stepRunsDecodedInstruction : Obligations.StepRunsDecodedInstruction := fun _ _ _ hpc hdec =>
  step_of_fetchInstr (fetchInstr_of_word hpc (decode_cons_cons_ok.mp hdec).1)

/-- Settles O8: the words on the list of R68 do not decode. -/
theorem invalidWordFaults : Obligations.InvalidWordFaults := fun _ _ hfetch hw =>
  step_of_fetchInstr_error (fetchInstr_of_invalidWord hfetch hw)

end Sys2Proof.Machine
end

section
/-! What exec can answer: every way an instruction completes and every way it faults (40_step_cycle.md R85 to R87,
60_exceptions.md R172), said once for all that follows. -/

namespace Sys2Proof.Machine

/-! ### Instructions that complete in one way -/

/-- The conditional skips. -/
def Skips (i : Instr) : Prop :=
  (∃ x kk, i = .seKk x kk ∨ i = .sneKk x kk) ∨ (∃ x y, i = .seVy x y ∨ i = .sneVy x y) ∨
  ∃ x, i = .skp x ∨ i = .sknp x

/-- The instructions that write Vx and no flag, apart from Cxkk, Fx0A and Fx65. -/
def WritesResult (x : RegIdx) (i : Instr) : Prop :=
  (∃ kk, i = .ldKk x kk ∨ i = .addKk x kk) ∨
  (∃ y, i = .ldVy x y ∨ i = .orVy x y ∨ i = .andVy x y ∨ i = .xorVy x y) ∨ i = .ldVxDt x

/-- The instructions that write Vx and then VF (R12). -/
def WritesResultAndFlag (x : RegIdx) (i : Instr) : Prop :=
  ∃ y, i = .addVy x y ∨ i = .sub x y ∨ i = .shr x y ∨ i = .subn x y ∨ i = .shl x y

/-- The instructions that write I. -/
def WritesI (i : Instr) : Prop := (∃ nnn, i = .ldI nnn) ∨ (∃ x, i = .addI x) ∨ ∃ x, i = .ldF x

/-- The instructions that write memory. -/
def Stores (i : Instr) : Prop := (∃ x, i = .ldB x) ∨ ∃ x, i = .ldMem x

/-- Everything an instruction that completes can have done to the state. -/
inductive Completes (s : State) : Instr → State → Prop
  | ret (h : 0 < s.sp.val) : Completes s .ret
      (commit s.stack[s.sp.val - 1] false (setStack ⟨s.sp.val - 1, by omega⟩ s.stack s))
  | call (nnn : Addr12) (h : s.sp.val < 16) : Completes s (.call nnn)
      (commit (addrOf nnn) false (setStack ⟨s.sp.val + 1, by omega⟩ (s.stack.set s.sp.val (s.pc + 2)) s))
  | jp (nnn : Addr12) : Completes s (.jp nnn) (commit (addrOf nnn) false s)
  | jpV0 (nnn : Addr12) : Completes s (.jpV0 nnn) (commit (addrOf nnn + wordOf (getV s V0)) false s)
  | skip {i : Instr} (hi : Skips i) (c : Bool) : Completes s i (commit (if c then s.pc + 4 else s.pc + 2) false s)
  | result {i : Instr} {x : RegIdx} (hi : WritesResult x i) (b : Byte) :
      Completes s i (commit (s.pc + 2) false (setV x b s))
  | resultAndFlag {i : Instr} {x : RegIdx} (hi : WritesResultAndFlag x i) (b : Byte) (f : Bool) :
      Completes s i (commit (s.pc + 2) false (setFlag f (setV x b s)))
  | rnd (x : RegIdx) (kk : Byte) : Completes s (.rnd x kk)
      (commit (s.pc + 2) false (setV x (Config.rnd s.draws &&& kk) (countDraw s)))
  | index {i : Instr} (hi : WritesI i) (w : Word) : Completes s i (commit (s.pc + 2) false (setI w s))
  | store {i : Instr} (hi : Stores i) {bs : List Byte} (h : s.i.toNat + bs.length ≤ 4096) :
      Completes s i (commit (s.pc + 2) false (setMem (Memory.writeBytes s.mem s.i.toNat bs) s))
  | loadBlock (x : RegIdx) : Completes s (.ldVxMem x)
      (commit (s.pc + 2) false (setVFrom 0 (Memory.readBytes s.mem s.i.toNat (x.toNat + 1)) s))
  | cls : Completes s .cls (commit (s.pc + 2) false (setFb 0 s))
  | draw (x y : RegIdx) (n : Nibble) : Completes s (.drw x y n)
      (commit (s.pc + 2) false (setFlag (drawn s x y n).2 (setFb (drawn s x y n).1 s)))
  | delay (x : RegIdx) : Completes s (.ldDtVx x) (commit (s.pc + 2) false (setDt (getV s x) s))
  | sound (x : RegIdx) : Completes s (.ldStVx x) (commit (s.pc + 2) false (setSt (getV s x) s))
  | key (x : RegIdx) {k : Nat} (h : lowestKey s = some k) : Completes s (.ldVxK x)
      (commit (s.pc + 2) false (setV x (BitVec.ofNat 8 k) s))
  | wait (x : RegIdx) (h : lowestKey s = none) : Completes s (.ldVxK x) (commit s.pc true s)

/-! ### Instructions that fault -/

/-- The bounds check of R47 fails on `len` bytes from I, with this fault. -/
def RangeFault (len : Nat) (s : State) (f : Fault) : Prop :=
  f = .memoryOutOfRange (BitVec.ofNat 16 (max s.i.toNat 4096)) ∧ 0 < len ∧ 4096 < s.i.toNat + len

/-- Every way an instruction can fault (R172). -/
def FaultsWith (s : State) (f : Fault) : Instr → Prop
  | .ret => f = .stackUnderflow ∧ s.sp = 0
  | .call _ => f = .stackOverflow ∧ s.sp = 16
  | .ldF x => f = .invalidGlyphIndex (getV s x) ∧ 15 < (getV s x).toNat
  | .skp x | .sknp x => f = .invalidKeyIndex (getV s x) ∧ 15 < (getV s x).toNat
  | .drw _ _ n => RangeFault n.toNat s f
  | .ldB _ => RangeFault 3 s f
  | .ldMem x | .ldVxMem x => RangeFault (x.toNat + 1) s f
  | _ => False

/-- The bounds check lets its continuation complete, or it fails. -/
theorem withRange_answers (len : Nat) (s : State) (k : StepResult) :
    (withRange len s k = k ∧ (len = 0 ∨ s.i.toNat + len ≤ 4096)) ∨
      ∃ f, withRange len s k = .fault f ∧ RangeFault len s f := by
  by_cases h : len = 0 ∨ s.i.toNat + len ≤ 4096
  · exact .inl ⟨withRange_of_inside h, h⟩
  · exact .inr ⟨_, withRange_of_outside (by omega) (by omega), rfl, by omega, by omega⟩

/-- An instruction completes in a way that `Completes` lists or faults in a way that `FaultsWith` lists. -/
theorem exec_answers (i : Instr) (s : State) :
    (∃ t, exec i s = .next t ∧ Completes s i t) ∨ ∃ f, exec i s = .fault f ∧ FaultsWith s f i := by
  cases i with
  | cls => exact .inl ⟨_, rfl, .cls⟩
  | ret =>
    rcases Nat.eq_zero_or_pos s.sp.val with h | h
    · exact .inr ⟨_, exec_ret_of_zero h, rfl, Fin.ext h⟩
    · exact .inl ⟨_, exec_ret_of_pos h, .ret h⟩
  | call nnn =>
    rcases Nat.lt_or_eq_of_le (Nat.le_of_lt_succ s.sp.isLt) with h | h
    · exact .inl ⟨_, exec_call_of_lt nnn h, .call nnn h⟩
    · exact .inr ⟨_, exec_call_of_full nnn h, rfl, Fin.ext h⟩
  | jp nnn => exact .inl ⟨_, rfl, .jp nnn⟩
  | jpV0 nnn => exact .inl ⟨_, rfl, .jpV0 nnn⟩
  | seKk x kk | sneKk x kk => exact .inl ⟨_, rfl, .skip (.inl ⟨x, kk, by simp⟩) _⟩
  | seVy x y | sneVy x y => exact .inl ⟨_, rfl, .skip (.inr (.inl ⟨x, y, by simp⟩)) _⟩
  | skp x =>
    rcases Nat.lt_or_ge 15 (getV s x).toNat with h | h
    · exact .inr ⟨_, exec_skp_of_gt h, rfl, h⟩
    · exact .inl ⟨_, exec_skp_of_le h, .skip (.inr (.inr ⟨x, by simp⟩)) _⟩
  | sknp x =>
    rcases Nat.lt_or_ge 15 (getV s x).toNat with h | h
    · exact .inr ⟨_, exec_sknp_of_gt h, rfl, h⟩
    · exact .inl ⟨_, exec_sknp_of_le h, .skip (.inr (.inr ⟨x, by simp⟩)) _⟩
  | ldKk x kk | addKk x kk => exact .inl ⟨_, rfl, .result (.inl ⟨kk, by simp⟩) _⟩
  | ldVy x y | orVy x y | andVy x y | xorVy x y => exact .inl ⟨_, rfl, .result (.inr (.inl ⟨y, by simp⟩)) _⟩
  | ldVxDt x => exact .inl ⟨_, rfl, .result (.inr (.inr rfl)) _⟩
  | addVy x y | sub x y | shr x y | subn x y | shl x y => exact .inl ⟨_, rfl, .resultAndFlag ⟨y, by simp⟩ _ _⟩
  | rnd x kk => exact .inl ⟨_, rfl, .rnd x kk⟩
  | ldI nnn => exact .inl ⟨_, rfl, .index (.inl ⟨nnn, rfl⟩) _⟩
  | addI x => exact .inl ⟨_, rfl, .index (.inr (.inl ⟨x, rfl⟩)) _⟩
  | ldF x =>
    rcases Nat.lt_or_ge 15 (getV s x).toNat with h | h
    · exact .inr ⟨_, exec_ldF_of_gt h, rfl, h⟩
    · exact .inl ⟨_, exec_ldF_of_le h, .index (.inr (.inr ⟨x, rfl⟩)) _⟩
  | ldB x =>
    rcases withRange_answers 3 s _ with ⟨hexec, h⟩ | ⟨f, hexec, hf⟩
    · exact .inl ⟨_, (exec_ldB x s).trans hexec, .store (.inl ⟨x, rfl⟩) (by rw [bcdDigits_length]; omega)⟩
    · exact .inr ⟨f, (exec_ldB x s).trans hexec, hf⟩
  | ldMem x =>
    rcases withRange_answers (x.toNat + 1) s _ with ⟨hexec, h⟩ | ⟨f, hexec, hf⟩
    · exact .inl ⟨_, (exec_ldMem x s).trans hexec, .store (.inr ⟨x, rfl⟩) (by rw [blockV_length]; omega)⟩
    · exact .inr ⟨f, (exec_ldMem x s).trans hexec, hf⟩
  | ldVxMem x =>
    rcases withRange_answers (x.toNat + 1) s _ with ⟨hexec, -⟩ | ⟨f, hexec, hf⟩
    · exact .inl ⟨_, (exec_ldVxMem x s).trans hexec, by rw [setVFrom_pc]; exact .loadBlock x⟩
    · exact .inr ⟨f, (exec_ldVxMem x s).trans hexec, hf⟩
  | drw x y n =>
    rcases withRange_answers n.toNat s _ with ⟨hexec, -⟩ | ⟨f, hexec, hf⟩
    · exact .inl ⟨_, (exec_drw x y n s).trans hexec, .draw x y n⟩
    · exact .inr ⟨f, (exec_drw x y n s).trans hexec, hf⟩
  | ldDtVx x => exact .inl ⟨_, rfl, .delay x⟩
  | ldStVx x => exact .inl ⟨_, rfl, .sound x⟩
  | ldVxK x =>
    cases h : lowestKey s with
    | none => exact .inl ⟨_, exec_ldVxK_of_none h, .wait x h⟩
    | some k => exact .inl ⟨_, exec_ldVxK_of_some h, .key x h⟩

/-- The inversion of a completed instruction. -/
theorem exec_next {i : Instr} {s t : State} (h : exec i s = .next t) : Completes s i t := by
  rcases exec_answers i s with ⟨u, hu, hc⟩ | ⟨f, hf, -⟩
  · rw [h] at hu; cases hu; exact hc
  · rw [h] at hf; cases hf

/-- The inversion of a faulting instruction. -/
theorem exec_fault {i : Instr} {s : State} {f : Fault} (h : exec i s = .fault f) : FaultsWith s f i := by
  rcases exec_answers i s with ⟨u, hu, -⟩ | ⟨g, hg, hf⟩
  · rw [h] at hu; cases hu
  · rw [h] at hg; cases hg; exact hf

/-! ### The obligations on faults -/

/-- Settles O9: a step is the fault of its fetch or what exec answers. -/
theorem noStepIsRefused : Obligations.NoStepIsRefused := fun s r hr => by
  cases hfetch : fetchInstr s with
  | error f => rw [step_of_fetchInstr_error hfetch] at hr; cases hr
  | ok i =>
    rw [step_of_fetchInstr hfetch] at hr
    rcases exec_answers i s with ⟨t, ht, -⟩ | ⟨f, hf, -⟩
    · rw [hr] at ht; cases ht
    · rw [hr] at hf; cases hf

/-- What a failed bounds check says, as R172 says it, beside what is known of the length that was checked. -/
theorem RangeFault.spec {len : Nat} {s : State} {f : Fault} {p : Nat → Prop} (h : RangeFault len s f) (hp : p len) :
    ∃ a len, f = .memoryOutOfRange a ∧ a.toNat = max s.i.toNat 4096 ∧ 0 < len ∧ 4095 < s.i.toNat + len - 1 ∧
      p len := by
  obtain ⟨rfl, hlen, hout⟩ := h
  exact ⟨_, len, rfl, firstOutOfRange_eq s.i ▸ firstOutOfRange_toNat s.i, hlen, by omega, hp⟩

/-- Settles O10: the list of R172 is the one that `FaultsWith` keeps instruction by instruction. -/
theorem whichInstructionsFault : Obligations.WhichInstructionsFault := fun i s f h => by
  have hf := exec_fault h
  cases i with
  | ret => exact .inl ⟨rfl, hf⟩
  | call nnn => exact .inr (.inl ⟨⟨nnn, rfl⟩, hf⟩)
  | ldF x => exact .inr (.inr (.inl ⟨x, rfl, hf⟩))
  | skp x => exact .inr (.inr (.inr (.inl ⟨x, .inl rfl, hf⟩)))
  | sknp x => exact .inr (.inr (.inr (.inl ⟨x, .inr rfl, hf⟩)))
  | drw x y n => exact .inr (.inr (.inr (.inr (hf.spec (.inl ⟨x, y, n, rfl, rfl⟩)))))
  | ldB x => exact .inr (.inr (.inr (.inr (hf.spec (.inr (.inl ⟨x, rfl, rfl⟩))))))
  | ldMem x => exact .inr (.inr (.inr (.inr (hf.spec (.inr (.inr ⟨x, .inl rfl, rfl⟩))))))
  | ldVxMem x => exact .inr (.inr (.inr (.inr (hf.spec (.inr (.inr ⟨x, .inr rfl, rfl⟩))))))
  | _ => exact hf.elim

/-- The converse of `exec_fault`. -/
theorem exec_of_faultsWith {i : Instr} {s : State} {f : Fault} (h : FaultsWith s f i) : exec i s = .fault f := by
  cases i with
  | ret => obtain ⟨rfl, hsp⟩ := h; exact exec_ret_of_zero (congrArg Fin.val hsp)
  | call nnn => obtain ⟨rfl, hsp⟩ := h; exact exec_call_of_full nnn (congrArg Fin.val hsp)
  | ldF x => obtain ⟨rfl, hx⟩ := h; exact exec_ldF_of_gt hx
  | skp x => obtain ⟨rfl, hx⟩ := h; exact exec_skp_of_gt hx
  | sknp x => obtain ⟨rfl, hx⟩ := h; exact exec_sknp_of_gt hx
  | drw x y n => obtain ⟨rfl, hlen, hout⟩ := h; exact (exec_drw x y n s).trans (withRange_of_outside hlen hout)
  | ldB x => obtain ⟨rfl, hlen, hout⟩ := h; exact (exec_ldB x s).trans (withRange_of_outside hlen hout)
  | ldMem x => obtain ⟨rfl, hlen, hout⟩ := h; exact (exec_ldMem x s).trans (withRange_of_outside hlen hout)
  | ldVxMem x => obtain ⟨rfl, hlen, hout⟩ := h; exact (exec_ldVxMem x s).trans (withRange_of_outside hlen hout)
  | _ => exact h.elim

/-- Whether an instruction faults, and with what, rests on the registers, I and SP alone. -/
theorem faultsWith_congr {s t : State} (hv : ∀ r, getV t r = getV s r) (hi : t.i = s.i) (hsp : t.sp = s.sp)
    (f : Fault) (i : Instr) : FaultsWith t f i ↔ FaultsWith s f i := by
  cases i <;> simp only [FaultsWith, RangeFault, hv, hi, hsp]

/-- The host's set_keys and tick, one after the other, write the keys and the timers alone. -/
theorem tick_setKeys_onlyChanges (keys : Vector Bool 16) (n : Nat) (s : State) :
    OnlyChanges [.key, .st, .dt] s (hostTick n (hostSetKeys keys s)) :=
  ((setKey_onlyChanges_key keys s).append (setSt_onlyChanges_st _ _)).append (setDt_onlyChanges_dt _ _)

/-- Settles O57: neither the fetch nor a fault of exec looks at the keys or the timers. -/
theorem faultRepeatsForEver : Obligations.FaultRepeatsForEver := fun s f keys n h => by
  have hframe := tick_setKeys_onlyChanges keys n s
  have hsame : fetchInstr (hostTick n (hostSetKeys keys s)) = fetchInstr s := fetchInstr_congr rfl rfl
  cases hfetch : fetchInstr s with
  | error g => rw [step_of_fetchInstr_error hfetch] at h; cases h; exact step_of_fetchInstr_error (hsame.trans hfetch)
  | ok i =>
    rw [step_of_fetchInstr hfetch] at h
    rw [step_of_fetchInstr (hsame.trans hfetch)]
    obtain ⟨hsp, -⟩ := hframe .stack (by simp)
    have hiff := faultsWith_congr (hframe .v (by simp)) (hframe .i (by simp)) hsp f i
    exact exec_of_faultsWith (hiff.mpr (exec_fault h))

end Sys2Proof.Machine
end

section
/-! Who writes what (10_state.md R34): each clause read off the ways an instruction completes; and the host's tick. -/

namespace Sys2Proof.Machine

section
variable {i : Instr} {s t : State}

/-! ### One lemma per piece of state -/

theorem Completes.key_eq (h : Completes s i t) : t.key = s.key := by
  cases h <;> simp

/-- The written-by row of the registers. -/
theorem Completes.v_writers (h : Completes s i t) {r : RegIdx} (hr : getV t r ≠ getV s r) :
    WritesResult r i ∨ WritesResultAndFlag r i ∨ (∃ kk, i = .rnd r kk) ∨ i = .ldVxK r ∨
      (∃ x, i = .ldVxMem x ∧ r.toNat ≤ x.toNat) ∨
      (r = VF ∧ ((∃ x, WritesResultAndFlag x i) ∨ ∃ x y n, i = .drw x y n)) := by
  cases h with
  | @result _ x hi b =>
    obtain rfl : r = x := by by_contra hne; simp [hne] at hr
    exact .inl hi
  | @resultAndFlag _ x hi b f =>
    by_cases hVF : r = VF
    · exact .inr (.inr (.inr (.inr (.inr ⟨hVF, .inl ⟨x, hi⟩⟩))))
    · obtain rfl : r = x := by by_contra hne; simp [hVF, hne] at hr
      exact .inr (.inl hi)
  | rnd x kk =>
    obtain rfl : r = x := by by_contra hne; simp [hne] at hr
    exact .inr (.inr (.inl ⟨kk, rfl⟩))
  | key x =>
    obtain rfl : r = x := by by_contra hne; simp [hne] at hr
    exact .inr (.inr (.inr (.inl rfl)))
  | loadBlock x =>
    rw [getV_commit, getV_loadBlock] at hr
    have hle : r.toNat ≤ x.toNat := by by_contra hgt; simp [hgt] at hr
    exact .inr (.inr (.inr (.inr (.inl ⟨x, rfl, hle⟩))))
  | draw x y n =>
    have hVF : r = VF := by by_contra hne; simp [hne] at hr
    exact .inr (.inr (.inr (.inr (.inr ⟨hVF, .inr ⟨x, y, n, rfl⟩⟩))))
  | _ => simp at hr

theorem Completes.i_writers (h : Completes s i t) (hi : t.i ≠ s.i) : WritesI i := by
  cases h with
  | index hw => exact hw
  | _ => simp at hi

theorem Completes.pc_writers (h : Completes s i t) (hpc : t.pc ≠ s.pc + 2) :
    i = .ret ∨ (∃ nnn, i = .jp nnn ∨ i = .call nnn ∨ i = .jpV0 nnn) ∨ Skips i ∨ ∃ x, i = .ldVxK x := by
  cases h with
  | ret => exact .inl rfl
  | jp nnn => exact .inr (.inl ⟨nnn, .inl rfl⟩)
  | call nnn => exact .inr (.inl ⟨nnn, .inr (.inl rfl)⟩)
  | jpV0 nnn => exact .inr (.inl ⟨nnn, .inr (.inr rfl)⟩)
  | skip hi => exact .inr (.inr (.inl hi))
  | wait x => exact .inr (.inr (.inr ⟨x, rfl⟩))
  | _ => exact absurd rfl hpc

theorem Completes.sp_writers (h : Completes s i t) (hsp : t.sp ≠ s.sp) : i = .ret ∨ ∃ nnn, i = .call nnn := by
  cases h with
  | ret => exact .inl rfl
  | call nnn => exact .inr ⟨nnn, rfl⟩
  | _ => simp at hsp

theorem Completes.stack_writers (h : Completes s i t) (hstack : t.stack ≠ s.stack) : ∃ nnn, i = .call nnn := by
  cases h with
  | call nnn => exact ⟨nnn, rfl⟩
  | _ => simp at hstack

theorem Completes.dt_writers (h : Completes s i t) (hdt : t.dt ≠ s.dt) : ∃ x, i = .ldDtVx x := by
  cases h with
  | delay x => exact ⟨x, rfl⟩
  | _ => simp at hdt

theorem Completes.st_writers (h : Completes s i t) (hst : t.st ≠ s.st) : ∃ x, i = .ldStVx x := by
  cases h with
  | sound x => exact ⟨x, rfl⟩
  | _ => simp at hst

theorem Completes.fb_writers (h : Completes s i t) (hfb : t.fb ≠ s.fb) : i = .cls ∨ ∃ x y n, i = .drw x y n := by
  cases h with
  | cls => exact .inl rfl
  | draw x y n => exact .inr ⟨x, y, n, rfl⟩
  | _ => simp at hfb

theorem Completes.mem_writers (h : Completes s i t) (hmem : t.mem ≠ s.mem) : Stores i := by
  cases h with
  | store hi => exact hi
  | _ => simp at hmem

theorem Completes.draws_writers (h : Completes s i t) (hdraws : t.draws ≠ s.draws) : ∃ x kk, i = .rnd x kk := by
  cases h with
  | rnd x kk => exact ⟨x, kk, rfl⟩
  | _ => simp at hdraws

/-- WAIT is written by every instruction, to 1 only by an Fx0A that finds every key up (R31, R87). -/
theorem Completes.wait_iff (h : Completes s i t) : t.wait = true ↔ (∃ x, i = .ldVxK x) ∧ lowestKey s = none := by
  cases h with
  | wait x hup => exact iff_of_true rfl ⟨⟨x, rfl⟩, hup⟩
  | key x hk => simp [hk]
  | skip hi | result hi | resultAndFlag hi | index hi | store hi =>
    refine iff_of_false Bool.false_ne_true ?_
    rintro ⟨⟨x, rfl⟩, -⟩
    simp [Skips, WritesResult, WritesResultAndFlag, WritesI, Stores] at hi
  | _ => simp

end

/-! ### The obligations -/

/-- Settles O11: clause by clause, the lemmas above. -/
theorem onlyNamedInstructionsWrite : Obligations.OnlyNamedInstructionsWrite := fun i s t hexec => by
  have h := exec_next hexec
  refine ⟨h.key_eq, fun r hr => ?_, h.i_writers, fun hpc => ?_, h.sp_writers, h.stack_writers, h.dt_writers,
    h.st_writers, h.fb_writers, fun hmem => h.mem_writers fun heq => hmem fun a => by rw [heq], h.draws_writers,
    by rw [h.wait_iff, lowestKey_none_key]⟩
  · rcases h.v_writers hr with (⟨kk, hi⟩ | ⟨y, hi⟩ | hi) | ⟨y, hi⟩ | ⟨kk, hi⟩ | hi | hi | ⟨hVF, ⟨x, y, hi⟩ | hi⟩
    · exact .inl ⟨kk, by tauto⟩
    · exact .inr (.inl ⟨y, by tauto⟩)
    · exact .inr (.inr (.inl hi))
    · exact .inr (.inl ⟨y, by tauto⟩)
    · exact .inl ⟨kk, .inr (.inr hi)⟩
    · exact .inr (.inr (.inr (.inl hi)))
    · exact .inr (.inr (.inr (.inr (.inl hi))))
    · exact .inr (.inr (.inr (.inr (.inr ⟨hVF, .inl ⟨x, y, hi⟩⟩))))
    · exact .inr (.inr (.inr (.inr (.inr ⟨hVF, .inr hi⟩))))
  · rcases h.pc_writers hpc with hi | hi | (hi | hi | ⟨x, hi⟩) | ⟨x, hi⟩
    · exact .inl hi
    · exact .inr (.inl hi)
    · exact .inr (.inr (.inl hi))
    · exact .inr (.inr (.inr (.inl hi)))
    · exact .inr (.inr (.inr (.inr ⟨x, by tauto⟩)))
    · exact .inr (.inr (.inr (.inr ⟨x, .inr (.inr hi)⟩)))

theorem flagByte_cases (f : Bool) : flagByte f = 0 ∨ flagByte f = 1 := by
  cases f
  · exact .inl rfl
  · exact .inr rfl

theorem writeWithFlag_vf {x : RegIdx} {b : Byte} {f : Bool} {s t : State} (h : writeWithFlag x b f s = .next t) :
    getV t VF = 0 ∨ getV t VF = 1 := by
  obtain rfl := advance_next h
  simpa using flagByte_cases f

theorem exec_drw_vf {x y : RegIdx} {n : Nibble} {s t : State} (h : exec (.drw x y n) s = .next t) :
    getV t VF = 0 ∨ getV t VF = 1 := by
  rcases withRange_answers n.toNat s _ with ⟨hexec, -⟩ | ⟨f, hexec, -⟩
  · rw [exec_drw, hexec] at h
    obtain rfl := advance_next h
    simpa using flagByte_cases (drawn s x y n).2
  · rw [exec_drw, hexec] at h
    cases h

/-- Settles O12: the flag instructions end with a flag in VF, and the writers of VF are those of O11 at r = F. -/
theorem onlyFlagInstructionsTouchVF : Obligations.OnlyFlagInstructionsTouchVF := fun i s t hexec => by
  refine ⟨?_, fun hVF => ?_⟩
  · rintro (⟨x, y, rfl | rfl | rfl | rfl | rfl⟩ | ⟨x, y, n, rfl⟩)
    iterate 5 exact writeWithFlag_vf hexec
    · exact exec_drw_vf hexec
  · rcases (exec_next hexec).v_writers hVF with
      (⟨kk, hi⟩ | hi | hi) | hi | ⟨kk, hi⟩ | hi | ⟨x, hi, (hx : 15 ≤ x.toNat)⟩ | ⟨-, hi | hi⟩
    · exact .inr (.inr (.inl ⟨kk, by tauto⟩))
    · exact .inr (.inr (.inr (.inl hi)))
    · exact .inr (.inr (.inr (.inr (.inl hi))))
    · exact .inl ⟨VF, hi⟩
    · exact .inr (.inr (.inl ⟨kk, .inr (.inr hi)⟩))
    · exact .inr (.inr (.inr (.inr (.inr (.inl hi)))))
    · obtain rfl : x = VF := BitVec.eq_of_toNat_eq (show x.toNat = 15 by omega)
      exact .inr (.inr (.inr (.inr (.inr (.inr hi)))))
    · exact .inl hi
    · exact .inr (.inl hi)

/-- A timer that has at least N left goes down by N. -/
theorem tickTimer_of_le {n : Nat} {b : Byte} (h : n ≤ b.toNat) : (tickTimer n b).toNat = b.toNat - n := by
  have hb := b.isLt
  rw [tickTimer, if_pos h, BitVec.toNat_ofNat, Nat.mod_eq_of_lt (by omega)]

/-- A timer that has less stops at zero. -/
theorem tickTimer_of_gt {n : Nat} {b : Byte} (h : b.toNat < n) : tickTimer n b = 0 := if_neg (Nat.not_le_of_gt h)

/-- Settles O53: both timers take `tickTimer`, and the last clause is the timers' rows of O11. -/
theorem tickFloorsAtZero : Obligations.TickFloorsAtZero := fun n s =>
  ⟨⟨tickTimer_of_le, tickTimer_of_gt⟩, ⟨tickTimer_of_le, tickTimer_of_gt⟩,
    ((setSt_onlyChanges_st _ s).append (setDt_onlyChanges_dt _ _)).mono (by simp),
    fun _ _ hexec => ⟨(exec_next hexec).dt_writers, (exec_next hexec).st_writers⟩⟩

end Sys2Proof.Machine
end

section
/-! The invariants of a run (Safety.lean): a step keeps `CoreInv`, every operation keeps `SessionInv`; and the byte
write, load, and what a session records. -/

namespace Sys2Proof.Machine

/-! ### Each part of the invariant is kept by a completed instruction -/

section
variable {i : Instr} {s t : State}

/-- A store that completed lies inside memory, and nothing else writes memory. -/
theorem Completes.mem_wf (h : Completes s i t) (hs : Memory.wf s.mem) : Memory.wf t.mem := by
  cases h with
  | store _ hin => exact Memory.writeBytes_wf _ hs hin
  | _ => simpa using hs

theorem word_add_toNat_le (a b : Word) : (a + b).toNat ≤ a.toNat + b.toNat := by
  rw [BitVec.toNat_add]
  exact Nat.mod_le _ _

/-- Only CALL writes an entry, and what it writes is the address after an instruction that was fetched. -/
theorem Completes.stack_le (h : Completes s i t) (hpc : s.pc.toNat ≤ 4094)
    (hs : ∀ k : Fin 16, s.stack[k].toNat ≤ 4096) (k : Fin 16) : t.stack[k].toNat ≤ 4096 := by
  cases h with
  | call nnn hlt =>
    have hpush : (s.pc + 2).toNat ≤ s.pc.toNat + 2 := word_add_toNat_le s.pc 2
    simp only [commit_stack, setStack_stack, Fin.getElem_fin, Vector.getElem_set]
    split
    · omega
    · exact hs k
  | _ => simpa using hs k

/-- The furthest target is that of Bnnn, 0xFFF + 0xFF (R18, decision D6). -/
theorem Completes.pc_le (h : Completes s i t) (hpc : s.pc.toNat ≤ 4094)
    (hs : ∀ k : Fin 16, s.stack[k].toNat ≤ 4096) : t.pc.toNat ≤ 0x10FE := by
  have hadd2 : (s.pc + 2).toNat ≤ s.pc.toNat + 2 := word_add_toNat_le s.pc 2
  have hadd4 : (s.pc + 4).toNat ≤ s.pc.toNat + 4 := word_add_toNat_le s.pc 4
  cases h with
  | ret hpos =>
    exact (hs ⟨s.sp.val - 1, by omega⟩).trans (by decide)
  | jp nnn | call nnn =>
    have hnnn := nnn.isLt
    rw [commit_pc, addrOf_toNat]
    omega
  | jpV0 nnn =>
    have hnnn := nnn.isLt
    have hv0 := (getV s V0).isLt
    rw [commit_pc, jpV0_target_toNat]
    omega
  | skip _ c =>
    rw [commit_pc]
    split <;> omega
  | wait => exact hpc.trans (by decide)
  | _ => exact hadd2.trans (by omega)

/-- Waiting leaves PC and memory, so the Fx0A that waits is fetched again (R87). -/
theorem Completes.waitsAtFx0A (h : Completes s i t) (hfetch : fetchInstr s = .ok i) : WaitsAtFx0A t := fun hwait => by
  cases h with
  | wait x => exact ⟨x, (fetchInstr_congr rfl rfl).trans hfetch⟩
  | _ => cases hwait

end

/-- Settles O15: each part of the invariant is kept by each way to complete. -/
theorem stepKeepsInv : Obligations.StepKeepsInv := fun s t ⟨hmem, _, hstack, _⟩ hstep => by
  obtain ⟨i, hfetch, hexec⟩ := step_next hstep
  have h := exec_next hexec
  have hpc := fetchInstr_pc_le hfetch
  exact ⟨h.mem_wf hmem, h.pc_le hpc hstack, h.stack_le hpc hstack, h.waitsAtFx0A hfetch⟩

/-! ### The host's operations -/

/-- Settles O14: memory is the empty list, PC 0x200, every stack entry 0, and WAIT 0. -/
theorem resetHasInv : Obligations.ResetHasInv :=
  ⟨reset_mem_wf, by decide, fun k => by rw [stack_reset k]; decide, fun hwait => by cases hwait⟩

/-- The invariant speaks of memory, PC, the stack and WAIT alone. -/
theorem CoreInv.congr {s t : State} (h : CoreInv s) (hmem : t.mem = s.mem) (hpc : t.pc = s.pc)
    (hstack : t.stack = s.stack) (hwait : t.wait = s.wait) : CoreInv t := by
  obtain ⟨hwf, hle, hentries, hwaits⟩ := h
  refine ⟨hmem ▸ hwf, hpc ▸ hle, hstack ▸ hentries, fun hw => ?_⟩
  rw [fetchInstr_congr hpc hmem]
  exact hwaits (hwait ▸ hw)

/-- What reset() makes of any state differs from the reset state in the count of draws alone. -/
theorem coreInv_hostReset (s : State) : CoreInv (hostReset s) := CoreInv.congr resetHasInv rfl rfl rfl rfl

theorem hostLoad_of_le {bytes : List Byte} (h : bytes.length ≤ 3584) (s : State) :
    hostLoad bytes s = some (setMem (Memory.writeBytes s.mem 0x200 bytes) s) := if_pos h

theorem hostLoad_of_gt {bytes : List Byte} (h : 3584 < bytes.length) (s : State) : hostLoad bytes s = none :=
  if_neg (Nat.not_le_of_gt h)

/-- A load that is accepted writes memory alone, and inside it. -/
theorem CoreInv.hostLoad {bytes : List Byte} {s t : State} (h : CoreInv s) (hready : s.wait = false)
    (hload : hostLoad bytes s = some t) : CoreInv t ∧ t.wait = false := by
  rcases Nat.lt_or_ge 3584 bytes.length with hlen | hlen
  · rw [hostLoad_of_gt hlen] at hload
    cases hload
  · rw [hostLoad_of_le hlen] at hload
    cases hload
    obtain ⟨hwf, hpc, hstack, -⟩ := h
    have hinside : 0x200 + bytes.length ≤ Config.memSize := by simp only [Config.memSize]; omega
    refine ⟨⟨Memory.writeBytes_wf bytes hwf hinside, hpc, hstack, fun hwait => ?_⟩, hready⟩
    rw [setMem_wait, hready] at hwait
    cases hwait

/-! ### What a session does (R80 to R84) -/

section
variable {x : Session}

theorem perform_reset : perform .reset x = some (.done, ⟨hostReset x.core, false, none⟩) := rfl

theorem perform_load_stepped {bytes : List Byte} (h : x.stepped = true) : perform (.load bytes) x = none := if_pos h

theorem perform_load_rejected {bytes : List Byte} (h : x.stepped = false) (hload : hostLoad bytes x.core = none) :
    perform (.load bytes) x = some (.rejected, x) := by
  simp [perform, h, hload]

theorem perform_load_accepted {bytes : List Byte} {t : State} (h : x.stepped = false)
    (hload : hostLoad bytes x.core = some t) : perform (.load bytes) x = some (.accepted, { x with core := t }) := by
  simp [perform, h, hload]

theorem perform_step_next {t : State} (h : step x.core = .next t) :
    perform .step x = some (.ok, { x with core := t, stepped := true }) := by
  simp [perform, h]

theorem perform_step_fault {f : Fault} (h : step x.core = .fault f) :
    perform .step x = some (.fault f, { x with stepped := true, firstFault := x.firstFault.or (some f) }) := by
  simp [perform, h]

end

/-- Settles O16: operation by operation. reset and step keep the core's invariant whatever the record says; load is made
only while Ready; keys and timers are no part of the invariant. -/
theorem everyOperationKeepsSessionInv : Obligations.EveryOperationKeepsSessionInv := by
  refine ⟨⟨resetHasInv, fun _ => rfl⟩, fun op x y r ⟨hcore, hready⟩ hop => ?_⟩
  cases op with
  | reset =>
    rw [perform_reset] at hop
    cases hop
    exact ⟨coreInv_hostReset x.core, fun _ => rfl⟩
  | load bytes =>
    cases hstepped : x.stepped with
    | true => rw [perform_load_stepped hstepped] at hop; cases hop
    | false =>
      cases hload : hostLoad bytes x.core with
      | none => rw [perform_load_rejected hstepped hload] at hop; cases hop; exact ⟨hcore, hready⟩
      | some t =>
        rw [perform_load_accepted hstepped hload] at hop
        cases hop
        obtain ⟨hinv, hwait⟩ := hcore.hostLoad (hready hstepped) hload
        exact ⟨hinv, fun _ => hwait⟩
  | setKeys k => cases hop; exact ⟨hcore.congr rfl rfl rfl rfl, hready⟩
  | tick n => cases hop; exact ⟨hcore.congr rfl rfl rfl rfl, hready⟩
  | step =>
    cases hstep : step x.core with
    | next t =>
      rw [perform_step_next hstep] at hop
      cases hop
      exact ⟨stepKeepsInv x.core t hcore hstep, fun h => by cases h⟩
    | fault f =>
      rw [perform_step_fault hstep] at hop
      cases hop
      exact ⟨hcore, fun h => by cases h⟩
    | refused r => exact absurd hstep (noStepIsRefused x.core r)

/-- Settles O17: reading after a write, and the canonical form. -/
theorem writeChangesOneByte : Obligations.WriteChangesOneByte := fun m a v =>
  ⟨(Memory.read_write m a a v).trans (if_pos rfl), fun b hb => (Memory.read_write m a b v).trans (if_neg hb),
    fun ha hm => Memory.write_wf v hm (Nat.lt_succ_of_le ha)⟩

/-- Settles O55: the length and the record of a step decide, and an accepted program is a block in memory. -/
theorem loadCopiesOrRejects : Obligations.LoadCopiesOrRejects := fun bytes s => by
  refine ⟨fun hlen => ?_, fun hlen => ?_, fun f => perform_load_stepped rfl⟩
  · exact ⟨hostLoad_of_gt hlen s, fun f => perform_load_rejected rfl (hostLoad_of_gt hlen s)⟩
  · exact ⟨_, hostLoad_of_le hlen s, fun k hk => Memory.read_writeBytes_inside s.mem 0x200 hk,
      fun a ha => Memory.read_writeBytes_outside s.mem ha, setMem_onlyChanges_mem _ s,
      fun f => perform_load_accepted rfl (hostLoad_of_le hlen s)⟩

/-- Settles O56: a faulting step is on record, after an earlier fault if there was one, and is no change of the core. -/
theorem faultingStepChangesNothing : Obligations.FaultingStepChangesNothing := fun x y f hop => by
  cases hstep : step x.core with
  | next t => rw [perform_step_next hstep] at hop; cases hop
  | refused r => exact absurd hstep (noStepIsRefused x.core r)
  | fault g =>
    rw [perform_step_fault hstep] at hop
    cases hop
    refine ⟨rfl, fun hnone => by simp [hnone], fun hsome => ?_⟩
    obtain ⟨e, he⟩ := Option.ne_none_iff_exists'.mp hsome
    simp [he]

/-- Settles O58: the session that reset() leaves. -/
theorem resetStartsASession : Obligations.ResetStartsASession := fun x =>
  ⟨_, perform_reset, fun p hp => hostReset_onlyChanges_draws x.core p fun h => hp (List.mem_singleton.mp h), rfl, rfl,
    rfl⟩

end Sys2Proof.Machine
end
